-- ==== Sys2Proof/Word.lean ====
section
/-! DEFINITION. Words: the unit of transfer is one byte of 8 bits, a nibble is 4 bits, a level is one bit (00_scope.md rules R13 and R15). -/

namespace Sys2Proof

/-- A byte, the unit of transfer (R13). -/
abbrev Byte := BitVec 8

/-- A 4-bit half of a byte (R15, R17). -/
abbrev Nibble := BitVec 4

/-- The level of a line, one bit: `false` is level 0 and `true` is level 1 (R13). -/
abbrev Level := Bool

end Sys2Proof
end

