-- ==== Sys2Proof/Syntax.lean ====
section
/-! DEFINITION. The instructions: one constructor for each row of spec/opcode_table.json. The rows are the seven operations (30_encoding.md rule R89), the eleven wire words (R83), the two frame formats (R81) and the ten micro-operation rows (R95). -/

namespace Sys2Proof

/-- The operand of TURN_ON: a closed set of three cursor states (R85, R130, 90_conflicts.md C1 and C3). -/
inductive CursorState where
  /-- "Cursor off, display on", `cs` = 0. -/
  | off
  /-- "Cursor on, blinking", `cs` = 1. -/
  | blinkOn
  /-- "Cursor on, steady (non-blinking)", `cs` = 2. -/
  | blinkOff
  deriving DecidableEq, Repr

/-- One constructor per row of the opcode table, in the table's order. -/
inductive Instr where
  /-- CONSTRUCT, format CFG3 `dnf` (R110). Its other operand, the Pin Assignment, is presented beside the word. -/
  | construct (d n f : Bool)
  /-- INIT, REQ12 0xF00, internal (R111). -/
  | init
  /-- TURN_ON cs, REQ12 0x100 + cs (R130). -/
  | turnOn (cs : CursorState)
  /-- TURN_OFF, REQ12 0x200 (R134). -/
  | turnOff
  /-- CLEAR, REQ12 0x300 (R140). -/
  | clear
  /-- PUT_CHAR b, REQ12 0x400 + b (R180). -/
  | putChar (b : Byte)
  /-- PUT_STRING, REQ12 0x500; the bytes are read from the string operand space (R181). -/
  | putString
  /-- CLEAR_DISPLAY, W9 0x001 (R141). -/
  | clearDisplay
  /-- RETURN_HOME, W9 0x002 (R142). -/
  | returnHome
  /-- ENTRY_MODE_RIGHT, W9 0x006 (R116). -/
  | entryModeRight
  /-- DISPLAY_OFF, W9 0x008 (R135). -/
  | displayOff
  /-- DISPLAY_ON_CURSOR_OFF, W9 0x00C (R131). -/
  | displayOnCursorOff
  /-- DISPLAY_ON_CURSOR_STEADY, W9 0x00E (R133). -/
  | displayOnCursorSteady
  /-- DISPLAY_ON_CURSOR_BLINK, W9 0x00F (R132). -/
  | displayOnCursorBlink
  /-- FUNCTION_SET, W9 `0 001d nf00` (R115). -/
  | functionSet (d n f : Bool)
  /-- FORCE4_A, W9 0x033 (R114). -/
  | force4A
  /-- FORCE4_B, W9 0x032 (R114). -/
  | force4B
  /-- DATA_WRITE b, W9 `1 bbbbbbbb` (R184). -/
  | dataWrite (b : Byte)
  /-- FRAME4, LATCH4 `r0vvvv` (R156); `rs` is the level of the enclosing transmission. -/
  | frame4 (rs : Level) (v : Nibble)
  /-- FRAME8, LATCH8 `r0vvvvvvvv` (R155); `rs` is the level of the enclosing transmission. -/
  | frame8 (rs : Level) (v : Byte)
  /-- TRANSMIT rs, B (R152). -/
  | transmit (rs : Level) (b : Byte)
  /-- SEND_COMMAND B (R150). -/
  | sendCommand (b : Byte)
  /-- SEND_DATA B (R151). -/
  | sendData (b : Byte)
  /-- RAW4_SEND v (R113). -/
  | raw4Send (v : Byte)
  /-- SELECT rs (R154). -/
  | select (rs : Level)
  /-- DRIVE_DATA with n = 4 (R158). -/
  | driveData4 (v : Nibble)
  /-- DRIVE_DATA with n = 8 (R158). -/
  | driveData8 (v : Byte)
  /-- FRAME v with n = WIDTH (R157). -/
  | frame (v : Byte)
  /-- PULSE (R159). -/
  | pulse
  /-- DELAY n (R153); `n` is a natural number of time units (R199). -/
  | delay (n : Nat)
  deriving DecidableEq, Repr

/-- The word formats of the opcode table. CFG3, REQ12, W9, LATCH4 and LATCH8 are words of the block (R80, R89); each MICRO row is the image of one micro-operation's operands, which no port carries, so each is a format of its own (R95). -/
inductive Format where
  | cfg3
  | req12
  | w9
  | latch4
  | latch8
  | imageTransmit
  | imageSendCommand
  | imageSendData
  | imageRaw4Send
  | imageSelect
  | imageDriveData4
  | imageDriveData8
  | imageFrame
  | imagePulse
  | imageDelay
  deriving DecidableEq, Repr

/-- Why a word is no instruction of its format. -/
inductive Reject where
  /-- The number does not fit the width of the format. -/
  | tooWide
  /-- A request word whose `op` is 0x0 or 0x6 to 0xE (R90). -/
  | reservedOperation
  /-- A TURN_ON request whose `arg[1:0]` is 3 (R90). -/
  | reservedCursorState
  /-- A request word with a nonzero bit where R90 asks for zero. -/
  | reservedArgument
  /-- A command byte outside the closed set of R83. -/
  | commandNotEmitted
  /-- A SEND_COMMAND, SEND_DATA or RAW4_SEND image whose RS bit is not the micro-operation's own (R95). -/
  | wrongRegisterSelect
  /-- A frame whose RW bit is not RW_WRITE = 0 (R81). -/
  | frameNotWrite
  /-- A two-bit image other than the levels 1, 0 that PULSE writes (R95). -/
  | notAPulse
  deriving DecidableEq, Repr

/-- The operations a host request can name: the five public operations (R89). INIT is internal and CONSTRUCT is no request. -/
def Instr.isPublic : Instr → Bool
  | .turnOn _ | .turnOff | .clear | .putChar _ | .putString => true
  | .construct _ _ _ | .init => false
  | .clearDisplay | .returnHome | .entryModeRight | .displayOff | .displayOnCursorOff
  | .displayOnCursorSteady | .displayOnCursorBlink | .functionSet _ _ _ | .force4A | .force4B
  | .dataWrite _ => false
  | .frame4 _ _ | .frame8 _ _ => false
  | .transmit _ _ | .sendCommand _ | .sendData _ | .raw4Send _ | .select _ | .driveData4 _
  | .driveData8 _ | .frame _ | .pulse | .delay _ => false

end Sys2Proof
end

