-- ==== Sys2Proof/Config.lean ====
section
/-! DEFINITION. What an implementation fixes: the timing and level parameters (00_scope.md rules R10, R11, R14), the pin handles and the strapped construction arguments (70_reset_and_hazards.md rule R220), and the free values of the spec (93_implementation_defined.md U2, U17). -/

namespace Sys2Proof.Machine

/-- A pin handle: one GPIO line, "port + pin number", opaque to the block (R12). -/
structure Handle where
  port : Nat
  pin : Nat
  deriving DecidableEq, Repr

/-- The Pin Assignment: one handle per signal, the Data handles as a list (R12, R22). -/
structure PinMap where
  rs : Handle
  rw : Handle
  e : Handle
  data : List Handle
  deriving DecidableEq, Repr

end Sys2Proof.Machine

namespace Sys2Proof

/-- The parameters a rule reads: the three delays in time units and the level of RW that means write (R10, R11). -/
structure Params where
  /-- T_POWER_ON (R10, R112). -/
  tPowerOn : Nat
  /-- T_SETTLE (R10, R153). -/
  tSettle : Nat
  /-- T_PULSE (R10, R159). -/
  tPulse : Nat
  /-- RW_WRITE (R11; 92_eei_decisions.md D4). -/
  rwWrite : Level
  deriving DecidableEq, Repr

/-- Legal parameters: each delay is at least the source's minimum (R10, R233). -/
def Params.legal (p : Params) : Bool :=
  decide (50 ≤ p.tPowerOn) && decide (5 ≤ p.tSettle) && decide (1 ≤ p.tPulse)

/-- The default parameters 50, 5, 1 (R10) and RW_WRITE = 0 (R11). -/
def Config.defaultParams : Params := { tPowerOn := 50, tSettle := 5, tPulse := 1, rwWrite := false }

/-- RS_COMMAND = 0 (R11). -/
def Config.rsCommand : Level := false

/-- RS_DATA = 1 (R11). -/
def Config.rsData : Level := true

/-- E_ASSERT = 1 (R11; D5). -/
def Config.eAssert : Level := true

/-- E_DEASSERT = 0 (R11; D5). -/
def Config.eDeassert : Level := false

/-- SENTINEL = 0x00 (R13). -/
def Config.sentinel : Byte := 0x00#8

/-- The code of ConfigError (R190, R191: "1 (spec's choice)"). -/
def Config.configErrorCode : Nat := 1

/-- A Pin Assignment with distinct handles and `n` Data lines. DESIGN CHOICE (log entry 8): the spec names no handle. -/
def Config.pins (n : Nat) : Machine.PinMap :=
  { rs := ⟨0, 0⟩, rw := ⟨0, 1⟩, e := ⟨0, 2⟩, data := (List.range n).map (fun i => ⟨1, i⟩) }

/-- The strapped configuration word `DL N F` = 1 1 0: 8-bit, 2 lines, 5x7. DESIGN CHOICE (log entry 8): R220 gives the straps no value. -/
def Config.strapDL : Bool := true

/-- See `Config.strapDL`. -/
def Config.strapN : Bool := true

/-- See `Config.strapDL`. -/
def Config.strapF : Bool := false

/-! ## Free values: constants without a body, so that nothing can be proved of their value -/

/-- TIME_UNIT, the platform-defined duration of one time unit (R10; U2). No rule reads it. -/
opaque Config.timeUnit : Rat

/-- TICKS_PER_UNIT of a clocked realisation (R14; D2). No rule reads it. -/
opaque Config.ticksPerUnit : Nat

/-- The numerator of the time an event takes beyond the time it asks for, at the given draw (R14, R29; U17). -/
opaque Config.extraTimeNum : Nat → Nat

/-- One less than the denominator of that time (R14, R29; U17). -/
opaque Config.extraTimeDen : Nat → Nat

/-- The time an event that asks for `n` units takes at draw `c`: any amount not less than `n` (R14, R29, R166; U17; log entry 6). -/
def Config.elapsed (n c : Nat) : Rat :=
  (n : Rat) + (Config.extraTimeNum c : Rat) / ((Config.extraTimeDen c : Rat) + 1)

end Sys2Proof
end

