-- ==== Sys2Proof/Machine/State.lean ====
section
/-! DEFINITION. The state of the block as plain data (10_state.md), the host's side of its ports, the reasons a step can stop, and the state after reset (R33, 70_reset_and_hazards.md rules R220 to R222). -/

namespace Sys2Proof.Machine

/-- The configuration register CFG, 3 bits, read-only after construction (R21). -/
structure Cfg where
  /-- DL, bit 2: 0 is 4-bit, 1 is 8-bit. -/
  dl : Bool
  /-- N, bit 1: 0 is 1 line, 1 is 2 lines. -/
  n : Bool
  /-- F, bit 0: 0 is 5x7, 1 is 5x10. -/
  f : Bool
  deriving DecidableEq, Repr

/-- The signals of the block: RS, RW, E and the Data lines (R16, R22). With a 4-bit bus only `d 0` to `d 3` exist. -/
inductive Signal where
  | rs
  | rw
  | e
  | d (i : Fin 8)
  deriving DecidableEq, Repr

/-- The output latch PIN: the level each signal was last driven to (R23). With a 4-bit bus the lines `d4` to `d7` do not exist and are never driven. -/
structure Pins where
  rs : Level
  rw : Level
  e : Level
  d0 : Level
  d1 : Level
  d2 : Level
  d3 : Level
  d4 : Level
  d5 : Level
  d6 : Level
  d7 : Level
  deriving DecidableEq, Repr

/-- An event of the trace: one call of a platform service (R7 Level P, R16). -/
inductive Event where
  /-- `SetPin(s, v)`. -/
  | setPin (s : Signal) (v : Level)
  /-- `Delay(n)`. -/
  | delay (n : Nat)
  deriving DecidableEq, Repr

/-- One event of an operation, with the byte that BYTE takes as the event begins where the event is the first of a transmission (R25, R152 `BYTE <- B`). -/
structure Micro where
  byte : Option Byte
  ev : Event
  deriving DecidableEq, Repr

/-- The sequencer position SEQ, this hardware's program counter (R24). For PUT_STRING `k` is the offset inside the current byte's transmission, the index of the byte being STRPOS. -/
inductive Seq where
  | idle
  | run (op : Instr) (k : Nat)
  deriving DecidableEq, Repr

/-- The lifecycle state LIFE (R27). -/
inductive Life where
  | unbuilt
  | initialising
  | ready
  | failed
  deriving DecidableEq, Repr

/-- What ConfigError records: its code and the two lengths (R190, R191). -/
structure ConfigErrorInfo where
  code : Nat
  dataLen : Nat
  width : Nat
  deriving DecidableEq, Repr

/-- The string operand space: (index, byte) cells, indexes strictly rising (R50, R62). An index that is not listed holds no byte. -/
abbrev Memory := List Host.Cell

/-- What the host presents to the block, one at a time and in order (R6, R88, R110, R226). -/
inductive Presented where
  /-- A construction with its word `DL N F` and its Pin Assignment (R110). -/
  | construct (cfg3 : BitVec 3) (pins : PinMap)
  /-- A request word, with the string operand that PUT_STRING reads (R88, R181). -/
  | request (word : BitVec 12) (str : Memory)
  /-- The release of the instance, a no-op (R226). -/
  | teardown
  deriving DecidableEq, Repr

/-- The state of the block and of the host's side of its ports. -/
structure State where
  /-- The parameters of this hardware (R10, R11). No step changes them. -/
  par : Params
  /-- CFG (R21). -/
  cfg : Cfg
  /-- PINMAP (R22). -/
  pinmap : PinMap
  /-- PIN (R23). -/
  pins : Pins
  /-- SEQ (R24). -/
  seq : Seq
  /-- BYTE (R25). -/
  byte : Byte
  /-- STRPOS (R26). -/
  strpos : Nat
  /-- LIFE (R27). -/
  life : Life
  /-- What the last ConfigError recorded (R190, R195). -/
  error : Option ConfigErrorInfo
  /-- TRACE, ghost: every event since construction, in order (R29). -/
  trace : List Event
  /-- TIME, ghost: the time units elapsed (R29). -/
  time : Rat
  /-- The model's own: how many elapsed times have been drawn from the free values of Config (log entry 6). -/
  draws : Nat
  /-- The host's side: what it presents next, the first item first (R6, R88). -/
  port : List Presented
  /-- The host's side: the Pin Assignment presented to CONSTRUCT (R110). -/
  pinsArg : PinMap
  /-- The host's side: the string operand space PUT_STRING reads (R50, R62). -/
  str : Memory
  deriving DecidableEq, Repr

/-- Why the machine stops with a fault. -/
inductive Fault where
  /-- Raised by the shared sequencing operation when SEQ holds a position that R24 excludes (`k` not less than the number of events). No run from a state the spec describes reaches it. Safe: nothing is claimed of such a state. -/
  | positionOutOfRange
  deriving DecidableEq, Repr

/-- Why a step has no meaning. -/
inductive Refusal where
  /-- The instruction has no meaning yet. Raised by `exec` only. Safe. -/
  | notModelled (mnemonic : String)
  /-- Raised by PUT_STRING when the operand has no 0x00 (R181; 93_implementation_defined.md U13: "refuse"). Safe. -/
  | unterminatedString
  /-- Raised by CONSTRUCT when two signals have one handle (R22; U15: "refuse (precondition, unchecked)"). Safe. -/
  | duplicateHandles
  /-- Raised by a 4-bit form on an 8-bit instance or the reverse: R113, R155, R156 and R158 require the width. It is raised by CFG.DL in every lifecycle (log entry 15). Safe. -/
  | wrongBusWidth
  /-- Raised by a meaning run while SEQ holds another operation (R203; U5: "a run with interleaved operations has no meaning"). `step` never does so. Safe. -/
  | operationInProgress
  deriving DecidableEq, Repr

/-- PIN at reset: every level 0. DESIGN CHOICE (log entry 5): the spec leaves the levels open, but for E, which the platform must hold at 0 (R33, R223 row e). -/
def Pins.reset : Pins :=
  { rs := false, rw := false, e := false, d0 := false, d1 := false, d2 := false, d3 := false,
    d4 := false, d5 := false, d6 := false, d7 := false }

/-- The machine right after reset: construction has been entered with the strapped arguments (R220, R33 third column), INIT is about to emit its first event (R222). -/
def State.reset : State :=
  { par := Config.defaultParams
    cfg := { dl := Config.strapDL, n := Config.strapN, f := Config.strapF }
    pinmap := Config.pins 8
    pins := Pins.reset
    seq := .run .init 0
    byte := 0#8
    strpos := 0
    life := .initialising
    error := none
    trace := []
    time := 0
    draws := 0
    port := []
    pinsArg := Config.pins 8
    str := [] }

/-- Before construction: no instance exists (R27; the start state of 95_test_vectors.md section 3). CFG, PINMAP and the other values are those `State.reset` names; they mean nothing before CONSTRUCT. -/
def State.unbuilt : State := { State.reset with seq := .idle, life := .unbuilt }

end Sys2Proof.Machine
end

