-- ==== Sys2Proof/Machine/Ops.lean ====
section
/-! DEFINITION. The named operations over the state: the string operand space, the pin map, the output latch, emitting one event, running one step of an operation (10_state.md rule R24), and taking the one exception (60_exceptions.md rule R195). -/

namespace Sys2Proof.Machine

/-! ## The string operand space (R50, R55, R62) -/

/-- The canonical form: indexes strictly rising. An unlisted index holds no byte, so no cell equals what an unlisted index reads as. -/
abbrev Memory.wf (m : Memory) : Prop := m.Pairwise (fun a b => a.1 < b.1)

/-- `MemRead(STR + k, 1)`: the byte at index `k`, or none where the operand has no byte (R16, R62). -/
def Memory.read (m : Memory) (k : Nat) : Option Byte :=
  match m with
  | [] => none
  | c :: rest => if c.1 = k then some c.2 else Memory.read rest k

/-- The host writes byte `b` at index `k` of its own string, keeping the canonical form. The block never writes this space (R50). -/
def Memory.write (m : Memory) (k : Nat) (b : Byte) : Memory :=
  match m with
  | [] => [(k, b)]
  | c :: rest =>
    if k < c.1 then (k, b) :: c :: rest
    else if k = c.1 then (k, b) :: rest
    else c :: Memory.write rest k b

/-- The bytes as they stand from index `k` upward (R55). -/
def Memory.ofBytesFrom (k : Nat) : List Byte → Memory
  | [] => []
  | b :: bs => (k, b) :: Memory.ofBytesFrom (k + 1) bs

/-- A string operand holding the bytes at indexes 0, 1, 2, .. (R50, R55). -/
def Memory.ofBytes (bs : List Byte) : Memory := Memory.ofBytesFrom 0 bs

/-- The index of the first sentinel at or after `k`, looked for in at most `fuel` bytes; none where a byte is missing before one is found. -/
def Memory.sentinelFrom (m : Memory) (k : Nat) : Nat → Option Nat
  | 0 => none
  | fuel + 1 =>
    match m.read k with
    | none => none
    | some b => if b = Config.sentinel then some k else m.sentinelFrom (k + 1) fuel

/-- The string's length: the least index that holds 0x00, every index before it holding a byte (R181). None for an operand outside the contract (U13). -/
def Memory.stringLength (m : Memory) : Option Nat := m.sentinelFrom 0 (m.length + 1)

/-! ## The configuration and the pin map (R21, R22) -/

/-- `WIDTH` = 4 + 4*DL (R21). -/
def widthOf (dl : Bool) : Nat := if dl then 8 else 4

/-- `WIDTH` of the instance. -/
def State.width (s : State) : Nat := widthOf s.cfg.dl

/-- CFG as its 3-bit word `DL N F` (R21, R89). -/
def Cfg.word (c : Cfg) : BitVec 3 :=
  BitVec.ofNat 3 ((if c.dl then 4 else 0) + (if c.n then 2 else 0) + (if c.f then 1 else 0))

/-- The handle of a signal: entry `i` of the Data list is the handle of `D(i)` (R22). -/
def PinMap.handle (m : PinMap) : Signal → Option Handle
  | .rs => some m.rs
  | .rw => some m.rw
  | .e => some m.e
  | .d i => m.data[i.val]?

/-- All the handles of a pin map. -/
def PinMap.handles (m : PinMap) : List Handle := m.rs :: m.rw :: m.e :: m.data

/-- The handles of distinct signals are distinct lines (R22, R223 row f). -/
def PinMap.distinct (m : PinMap) : Bool := decide m.handles.Nodup

/-! ## The output latch (R23) -/

/-- `PIN[s]` (R16). -/
def Pins.get (p : Pins) : Signal → Level
  | .rs => p.rs
  | .rw => p.rw
  | .e => p.e
  | .d 0 => p.d0
  | .d 1 => p.d1
  | .d 2 => p.d2
  | .d 3 => p.d3
  | .d 4 => p.d4
  | .d 5 => p.d5
  | .d 6 => p.d6
  | .d 7 => p.d7

/-- `PIN[s] <- v` (R16). -/
def Pins.set (p : Pins) (s : Signal) (v : Level) : Pins :=
  match s with
  | .rs => { p with rs := v }
  | .rw => { p with rw := v }
  | .e => { p with e := v }
  | .d 0 => { p with d0 := v }
  | .d 1 => { p with d1 := v }
  | .d 2 => { p with d2 := v }
  | .d 3 => { p with d3 := v }
  | .d 4 => { p with d4 := v }
  | .d 5 => { p with d5 := v }
  | .d 6 => { p with d6 := v }
  | .d 7 => { p with d7 := v }

/-! ## Emitting an event (R16, R23, R29) -/

/-- What an event does to the pin levels: `SetPin` drives one line, `Delay` none. -/
def Event.drive (e : Event) (p : Pins) : Pins :=
  match e with
  | .setPin s v => p.set s v
  | .delay _ => p

/-- The least time an event takes: `n` for `Delay(n)`, 0 for any other (R14, R29). -/
def Event.leastTime (e : Event) : Nat :=
  match e with
  | .setPin _ _ => 0
  | .delay n => n

/-- Emit one event: BYTE where the event begins a transmission (R25), PIN (R23), TRACE and TIME (R29). -/
def emit (m : Micro) (s : State) : State :=
  { s with
    byte := m.byte.getD s.byte
    pins := m.ev.drive s.pins
    trace := s.trace ++ [m.ev]
    time := s.time + Config.elapsed m.ev.leastTime s.draws
    draws := s.draws + 1 }

/-- Emit the events of a list in order. -/
def emitAll (ms : List Micro) (s : State) : State := ms.foldl (fun t m => emit m t) s

/-! ## One step of an operation (R24) -/

/-- Emit event number `k` of the operation `i` whose events are `ms`; then `pc <- (i, k+1)`, or `done` after the last event (R24). -/
def advance (i : Instr) (ms : List Micro) (k : Nat)
    (done : State → Host.Outcome State Fault Refusal) (s : State) :
    Host.Outcome State Fault Refusal :=
  match ms[k]? with
  | none => .fault .positionOutOfRange
  | some m =>
    if k + 1 < ms.length then .next { emit m s with seq := .run i (k + 1) }
    else done (emit m s)

/-- The end of an operation: `pc <- IDLE` (R8, R24). -/
def toIdle (s : State) : Host.Outcome State Fault Refusal := .next { s with seq := .idle }

/-- The end of INIT: `LIFE <- READY ; pc <- IDLE` (R110, R222). -/
def toReady (s : State) : Host.Outcome State Fault Refusal :=
  .next { s with seq := .idle, life := .ready }

/-- The acceptance of an operation: `pc <- (op, 0)`, no event (R24). -/
def accept (i : Instr) (s : State) : Host.Outcome State Fault Refusal :=
  .next { s with seq := .run i 0 }

/-- One step of the operation `i` whose events are `ms`.
With SEQ = IDLE it is accepted, `pc <- (i, 0)`, and emits nothing yet, provided LIFE admits it; otherwise nothing happens (R24, R88, R203: "no event, no state change").
With SEQ = (i, k) it emits event `k` (R24).
While another operation is in progress it has no meaning (R203, U5). -/
def runOp (i : Instr) (ms : List Micro) (admits : Bool)
    (done : State → Host.Outcome State Fault Refusal) (s : State) :
    Host.Outcome State Fault Refusal :=
  match s.seq with
  | .idle => if admits then accept i s else .next s
  | .run j k => if j = i then advance i ms k done s else .refused .operationInProgress

/-- Requests are accepted only in READY (R27, R88). -/
def State.isReady (s : State) : Bool := decide (s.life = .ready)

/-- INIT belongs to construction only (R111, R119). -/
def State.isInitialising (s : State) : Bool := decide (s.life = .initialising)

/-- A micro-operation or wire word is part of an operation, so an instance must exist: during INIT or afterwards (R27, R95). -/
def State.isBuilt (s : State) : Bool := s.isReady || s.isInitialising

/-! ## Taking the exception (R191, R195) -/

/-- `raise ConfigError(dataLen, width)`: nothing is emitted, no pin is driven, CFG and PINMAP are not written, `LIFE <- FAILED`, `SEQ = IDLE`, and the code and the two lengths are recorded.
There is no vector, no saved state and no return: FAILED is terminal until a new construction (R196). -/
def takeConfigError (dataLen width : Nat) (s : State) : State :=
  { s with
    life := .failed
    seq := .idle
    error := some { code := Config.configErrorCode, dataLen := dataLen, width := width }
    trace := []
    time := 0 }

end Sys2Proof.Machine
end

