-- ==== Sys2Proof/Machine/Operands.lean ====
section
/-! DEFINITION. The operand forms: the bit test, the nibble split and the three assembled command bytes (30_encoding.md rules R84 to R87). -/

namespace Sys2Proof.Machine

/-- `bit(v, i) = (v >> i) & 1`, shift before mask, as a level (R87, R168). -/
def bit {n : Nat} (v : BitVec n) (i : Nat) : Level := decide ((v >>> i) &&& 1#n = 1#n)

/-- `hi(B) = (B >> 4) & 0xF` (R86). -/
def hi (b : Byte) : Nibble := ((b >>> 4) &&& 0x0F#8).setWidth 4

/-- `lo(B) = B & 0xF` (R86). -/
def lo (b : Byte) : Nibble := (b &&& 0x0F#8).setWidth 4

/-- A 1-bit field as a byte. -/
def bitByte (b : Bool) : Byte := if b then 1#8 else 0#8

/-- `fs(DL, N, F) = 0x20 | (DL << 4) | (N << 3) | (F << 2)` (R84). -/
def fs (dl n f : Bool) : Byte :=
  0x20#8 ||| (bitByte dl <<< 4) ||| (bitByte n <<< 3) ||| (bitByte f <<< 2)

/-- `dc(cs)`: the display-control byte of a cursor state, a three-way choice (R85, R130). -/
def dc : CursorState → Byte
  | .off => 0x0C#8
  | .blinkOn => 0x0F#8
  | .blinkOff => 0x0E#8

end Sys2Proof.Machine
end

