-- ==== Sys2Proof/Machine/Sequences.lean ====
section
/-! DEFINITION. The events of every operation and micro-operation, `Events(op)`, composed as the pseudocode composes them (00_scope.md rule R16; files 41 to 45). -/

namespace Sys2Proof.Machine

/-- `SetPin(s, v)` as one event of a sequence. -/
def seqPin (s : Signal) (v : Level) : List Micro := [{ byte := none, ev := .setPin s v }]

/-- DELAY n: one call of `delay(n)` (R153). -/
def seqDelay (n : Nat) : List Micro := [{ byte := none, ev := .delay n }]

/-- SELECT rs: `SetPin(RS, rs) ; SetPin(RW, RW_WRITE)` (R154). -/
def seqSelect (p : Params) (rs : Level) : List Micro := seqPin .rs rs ++ seqPin .rw p.rwWrite

/-- DRIVE_DATA(4, v): every line, index upward (R158). -/
def seqDriveData4 (v : Nibble) : List Micro :=
  ([0, 1, 2, 3] : List (Fin 8)).flatMap (fun i => seqPin (.d i) (bit v i.val))

/-- DRIVE_DATA(8, v): every line, index upward (R158). -/
def seqDriveData8 (v : Byte) : List Micro :=
  ([0, 1, 2, 3, 4, 5, 6, 7] : List (Fin 8)).flatMap (fun i => seqPin (.d i) (bit v i.val))

/-- PULSE: `SetPin(E, 1) ; Delay(T_PULSE) ; SetPin(E, 0)` (R159). -/
def seqPulse (p : Params) : List Micro :=
  seqPin .e Config.eAssert ++ seqDelay p.tPulse ++ seqPin .e Config.eDeassert

/-- FRAME4(v) = DRIVE_DATA(4, v) ; PULSE (R156). -/
def seqFrame4 (p : Params) (v : Nibble) : List Micro := seqDriveData4 v ++ seqPulse p

/-- FRAME8(v) = DRIVE_DATA(8, v) ; PULSE (R155). -/
def seqFrame8 (p : Params) (v : Byte) : List Micro := seqDriveData8 v ++ seqPulse p

/-- FRAME(n, v) with n = WIDTH (R157): with a 4-bit bus the loop of DRIVE_DATA reads bits 0 to 3 of `v`. -/
def seqFrame (p : Params) (dl : Bool) (v : Byte) : List Micro :=
  if dl then seqFrame8 p v else seqFrame4 p (lo v)

/-- The head of a transmission: `BYTE <- B ; DELAY(T_SETTLE) ; SELECT(rs)` (R152). -/
def seqHead (p : Params) (rs : Level) (b : Byte) : List Micro :=
  [{ byte := some b, ev := .delay p.tSettle }] ++ seqSelect p rs

/-- A transmission with two 4-bit frames, high nibble first (R152, R160). -/
def seqTransmit4 (p : Params) (rs : Level) (b : Byte) : List Micro :=
  seqHead p rs b ++ seqFrame4 p (hi b) ++ seqFrame4 p (lo b)

/-- A transmission with one 8-bit frame (R152, R160). -/
def seqTransmit8 (p : Params) (rs : Level) (b : Byte) : List Micro :=
  seqHead p rs b ++ seqFrame8 p b

/-- TRANSMIT rs, B (R152). -/
def seqTransmit (p : Params) (dl : Bool) (rs : Level) (b : Byte) : List Micro :=
  if dl then seqTransmit8 p rs b else seqTransmit4 p rs b

/-- SEND_COMMAND B = Transmit(0, B) (R150). -/
def seqSendCommand (p : Params) (dl : Bool) (b : Byte) : List Micro :=
  seqTransmit p dl Config.rsCommand b

/-- SEND_DATA B = Transmit(1, B) (R151). -/
def seqSendData (p : Params) (dl : Bool) (b : Byte) : List Micro :=
  seqTransmit p dl Config.rsData b

/-- RAW4_SEND v: the events of a 4-bit command transmission, without consulting CFG.DL (R113). -/
def seqRaw4Send (p : Params) (v : Byte) : List Micro := seqTransmit4 p Config.rsCommand v

/-- CLEAR: 0x01 then 0x02, two separate transmissions (R140, R143). -/
def seqClear (p : Params) (dl : Bool) : List Micro :=
  seqSendCommand p dl 0x01#8 ++ seqSendCommand p dl 0x02#8

/-- TURN_ON cs: one command, chosen by the cursor state (R130). -/
def seqTurnOn (p : Params) (dl : Bool) (cs : CursorState) : List Micro :=
  seqSendCommand p dl (dc cs)

/-- The raw path of INIT's step 2, 4-bit mode only (R113, R114). -/
def seqForce4 (p : Params) (dl : Bool) : List Micro :=
  if dl then [] else seqRaw4Send p 0x33#8 ++ seqRaw4Send p 0x32#8

/-- INIT, the six steps of the source's algorithm in order (R111). -/
def seqInit (p : Params) (c : Cfg) : List Micro :=
  seqDelay p.tPowerOn ++ seqForce4 p c.dl ++ seqSendCommand p c.dl (fs c.dl c.n c.f)
    ++ seqClear p c.dl ++ seqTurnOn p c.dl .off ++ seqSendCommand p c.dl 0x06#8

/-- `Events(op)` of every instruction at a state, each event with the byte it latches.
For PUT_STRING these are the events of the byte in BYTE, the sequence being produced lazily (R24, R182); CONSTRUCT emits no event (R110). -/
def sequenceOf (i : Instr) (s : State) : List Micro :=
  match i with
  | .construct _ _ _ => []
  | .init => seqInit s.par s.cfg
  | .turnOn cs => seqTurnOn s.par s.cfg.dl cs
  | .turnOff => seqSendCommand s.par s.cfg.dl 0x08#8
  | .clear => seqClear s.par s.cfg.dl
  | .putChar b => seqSendData s.par s.cfg.dl b
  | .putString => seqSendData s.par s.cfg.dl s.byte
  | .clearDisplay => seqSendCommand s.par s.cfg.dl 0x01#8
  | .returnHome => seqSendCommand s.par s.cfg.dl 0x02#8
  | .entryModeRight => seqSendCommand s.par s.cfg.dl 0x06#8
  | .displayOff => seqSendCommand s.par s.cfg.dl 0x08#8
  | .displayOnCursorOff => seqSendCommand s.par s.cfg.dl 0x0C#8
  | .displayOnCursorSteady => seqSendCommand s.par s.cfg.dl 0x0E#8
  | .displayOnCursorBlink => seqSendCommand s.par s.cfg.dl 0x0F#8
  | .functionSet d n f => seqSendCommand s.par s.cfg.dl (fs d n f)
  | .force4A => seqRaw4Send s.par 0x33#8
  | .force4B => seqRaw4Send s.par 0x32#8
  | .dataWrite b => seqSendData s.par s.cfg.dl b
  | .frame4 _ v => seqFrame4 s.par v
  | .frame8 _ v => seqFrame8 s.par v
  | .transmit rs b => seqTransmit s.par s.cfg.dl rs b
  | .sendCommand b => seqSendCommand s.par s.cfg.dl b
  | .sendData b => seqSendData s.par s.cfg.dl b
  | .raw4Send v => seqRaw4Send s.par v
  | .select rs => seqSelect s.par rs
  | .driveData4 v => seqDriveData4 v
  | .driveData8 v => seqDriveData8 v
  | .frame v => seqFrame s.par s.cfg.dl v
  | .pulse => seqPulse s.par
  | .delay n => seqDelay n

/-- The bare events of a sequence. -/
def eventsOf (ms : List Micro) : List Event := ms.map Micro.ev

end Sys2Proof.Machine
end

