-- ==== Sys2Proof/Machine/Construction.lean ====
section
/-! DEFINITION. CONSTRUCT, INIT, RAW4_SEND and the wire words FORCE4_A, FORCE4_B, FUNCTION_SET and ENTRY_MODE_RIGHT (41_initialization.md rules R110 to R120). -/

namespace Sys2Proof.Machine

/-- A checked construction: CFG and PINMAP are copies of the arguments, `LIFE <- INITIALISING`, `pc <- (INIT, 0)`, and the trace and the time start anew (R110, R33, R35). -/
def beginInstance (d n f : Bool) (s : State) : State :=
  { s with
    cfg := { dl := d, n := n, f := f }
    pinmap := s.pinsArg
    life := .initialising
    seq := .run .init 0
    error := none
    trace := []
    time := 0 }

/-- CONSTRUCT (R110): the check of the Data list first (R191), then the precondition on distinct handles, which a model refuses (R22, U15), then the new instance. A construction is a new reset in every lifecycle state (R225), and waits for the operation in progress like any call (R63). -/
def execConstruct (d n f : Bool) (s : State) : Host.Outcome State Fault Refusal :=
  match s.seq with
  | .run _ _ => .refused .operationInProgress
  | .idle =>
    if s.pinsArg.data.length ≠ widthOf d then
      .next (takeConfigError s.pinsArg.data.length (widthOf d) s)
    else if s.pinsArg.distinct then .next (beginInstance d n f s)
    else .refused .duplicateHandles

/-- INIT (R111): the events of the six steps; after the last `LIFE <- READY ; pc <- IDLE` (R110). Only construction begins it (R119). -/
def execInit (s : State) : Host.Outcome State Fault Refusal :=
  runOp .init (seqInit s.par s.cfg) s.isInitialising toReady s

/-- RAW4_SEND v (R113): requires WIDTH = 4. The width test comes before that of LIFE, also where no instance exists (DESIGN CHOICE, log entry 15). -/
def execRaw4Send (v : Byte) (s : State) : Host.Outcome State Fault Refusal :=
  if s.cfg.dl then .refused .wrongBusWidth
  else runOp (.raw4Send v) (seqRaw4Send s.par v) s.isBuilt toIdle s

/-- FORCE4_A = RAW4_SEND(0x33) (R114): 4-bit mode only. The width test comes before that of LIFE, also where no instance exists (DESIGN CHOICE, log entry 15). -/
def execForce4A (s : State) : Host.Outcome State Fault Refusal :=
  if s.cfg.dl then .refused .wrongBusWidth
  else runOp .force4A (seqRaw4Send s.par 0x33#8) s.isBuilt toIdle s

/-- FORCE4_B = RAW4_SEND(0x32) (R114): 4-bit mode only. The width test comes before that of LIFE, also where no instance exists (DESIGN CHOICE, log entry 15). -/
def execForce4B (s : State) : Host.Outcome State Fault Refusal :=
  if s.cfg.dl then .refused .wrongBusWidth
  else runOp .force4B (seqRaw4Send s.par 0x32#8) s.isBuilt toIdle s

/-- FUNCTION_SET = SEND_COMMAND(fs(d, n, f)) (R115); INIT sends it with the fields of CFG. -/
def execFunctionSet (d n f : Bool) (s : State) : Host.Outcome State Fault Refusal :=
  runOp (.functionSet d n f) (seqSendCommand s.par s.cfg.dl (fs d n f)) s.isBuilt toIdle s

/-- ENTRY_MODE_RIGHT = SEND_COMMAND(0x06) (R116). -/
def execEntryModeRight (s : State) : Host.Outcome State Fault Refusal :=
  runOp .entryModeRight (seqSendCommand s.par s.cfg.dl 0x06#8) s.isBuilt toIdle s

end Sys2Proof.Machine
end

