-- ==== Sys2Proof/Machine/DisplayControl.lean ====
section
/-! DEFINITION. TURN_ON, TURN_OFF, CLEAR and the wire words they emit (42_display_control.md rules R130 to R136, 43_clear.md rules R140 to R143). -/

namespace Sys2Proof.Machine

/-- TURN_ON cs (R130): exactly one command. -/
def execTurnOn (cs : CursorState) (s : State) : Host.Outcome State Fault Refusal :=
  runOp (.turnOn cs) (seqTurnOn s.par s.cfg.dl cs) s.isReady toIdle s

/-- TURN_OFF (R134): SEND_COMMAND(0x08). -/
def execTurnOff (s : State) : Host.Outcome State Fault Refusal :=
  runOp .turnOff (seqSendCommand s.par s.cfg.dl 0x08#8) s.isReady toIdle s

/-- CLEAR (R140): SEND_COMMAND(0x01) ; SEND_COMMAND(0x02). -/
def execClear (s : State) : Host.Outcome State Fault Refusal :=
  runOp .clear (seqClear s.par s.cfg.dl) s.isReady toIdle s

/-- CLEAR_DISPLAY = SEND_COMMAND(0x01) (R141). -/
def execClearDisplay (s : State) : Host.Outcome State Fault Refusal :=
  runOp .clearDisplay (seqSendCommand s.par s.cfg.dl 0x01#8) s.isBuilt toIdle s

/-- RETURN_HOME = SEND_COMMAND(0x02) (R142). -/
def execReturnHome (s : State) : Host.Outcome State Fault Refusal :=
  runOp .returnHome (seqSendCommand s.par s.cfg.dl 0x02#8) s.isBuilt toIdle s

/-- DISPLAY_OFF = SEND_COMMAND(0x08) (R135). -/
def execDisplayOff (s : State) : Host.Outcome State Fault Refusal :=
  runOp .displayOff (seqSendCommand s.par s.cfg.dl 0x08#8) s.isBuilt toIdle s

/-- DISPLAY_ON_CURSOR_OFF = SEND_COMMAND(0x0C) (R131). -/
def execDisplayOnCursorOff (s : State) : Host.Outcome State Fault Refusal :=
  runOp .displayOnCursorOff (seqSendCommand s.par s.cfg.dl 0x0C#8) s.isBuilt toIdle s

/-- DISPLAY_ON_CURSOR_STEADY = SEND_COMMAND(0x0E) (R133). -/
def execDisplayOnCursorSteady (s : State) : Host.Outcome State Fault Refusal :=
  runOp .displayOnCursorSteady (seqSendCommand s.par s.cfg.dl 0x0E#8) s.isBuilt toIdle s

/-- DISPLAY_ON_CURSOR_BLINK = SEND_COMMAND(0x0F) (R132). -/
def execDisplayOnCursorBlink (s : State) : Host.Outcome State Fault Refusal :=
  runOp .displayOnCursorBlink (seqSendCommand s.par s.cfg.dl 0x0F#8) s.isBuilt toIdle s

end Sys2Proof.Machine
end

