-- ==== Sys2Proof/Machine/Output.lean ====
section
/-! DEFINITION. PUT_CHAR, PUT_STRING and the wire word DATA_WRITE (45_character_string.md rules R180 to R184). -/

namespace Sys2Proof.Machine

/-- PUT_CHAR b (R180): exactly one data transmission of that byte, 0x00 like any other. -/
def execPutChar (b : Byte) (s : State) : Host.Outcome State Fault Refusal :=
  runOp (.putChar b) (seqSendData s.par s.cfg.dl b) s.isReady toIdle s

/-- DATA_WRITE b = SEND_DATA(b) (R184). -/
def execDataWrite (b : Byte) (s : State) : Host.Outcome State Fault Refusal :=
  runOp (.dataWrite b) (seqSendData s.par s.cfg.dl b) s.isBuilt toIdle s

/-- `c <- MemRead(STR + STRPOS, 1)` (R181, R62): the sentinel ends the loop and is not sent; any other byte is held in BYTE and `send` goes on with it. -/
def fetchChar (send : State → Host.Outcome State Fault Refusal) (s : State) :
    Host.Outcome State Fault Refusal :=
  match s.str.read s.strpos with
  | none => .refused .unterminatedString
  | some c => if c = Config.sentinel then toIdle s else send { s with byte := c }

/-- The byte in BYTE is about to be transmitted: `pc <- (PUT_STRING, 0)`, the offset being inside that byte's transmission (R24). -/
def toNextChar (s : State) : Host.Outcome State Fault Refusal := accept .putString s

/-- After a byte's last event: `STRPOS <- STRPOS + 1`, and the next byte is fetched (R181, R182). -/
def endChar (s : State) : Host.Outcome State Fault Refusal :=
  fetchChar toNextChar { s with strpos := s.strpos + 1 }

/-- Event `k` of the transmission of the byte in BYTE (R24, R182). -/
def advanceChar (k : Nat) (s : State) : Host.Outcome State Fault Refusal :=
  advance .putString (seqSendData s.par s.cfg.dl s.byte) k endChar s

/-- The acceptance of PUT_STRING: `STRPOS <- 0` and the first fetch, which settles whether the string is empty: then `pc <- IDLE` directly, else `pc <- (PUT_STRING, 0)`; no event (R24, R181; log entry 7). An operand with no sentinel is refused (U13). -/
def beginString (s : State) : Host.Outcome State Fault Refusal :=
  match s.str.stringLength with
  | none => .refused .unterminatedString
  | some _ => fetchChar toNextChar { s with strpos := 0 }

/-- PUT_STRING (R181): lazy, one byte held at a time, not restartable (R182). -/
def execPutString (s : State) : Host.Outcome State Fault Refusal :=
  match s.seq with
  | .idle => if s.isReady then beginString s else .next s
  | .run j k => if j = .putString then advanceChar k s else .refused .operationInProgress

end Sys2Proof.Machine
end

