-- ==== Sys2Proof/Machine/Transmission.lean ====
section
/-! DEFINITION. The micro-operations of a transmission and the two frame formats (44_transmission.md rules R150 to R160). -/

namespace Sys2Proof.Machine

/-- SEND_COMMAND B (R150). -/
def execSendCommand (b : Byte) (s : State) : Host.Outcome State Fault Refusal :=
  runOp (.sendCommand b) (seqSendCommand s.par s.cfg.dl b) s.isBuilt toIdle s

/-- SEND_DATA B (R151). -/
def execSendData (b : Byte) (s : State) : Host.Outcome State Fault Refusal :=
  runOp (.sendData b) (seqSendData s.par s.cfg.dl b) s.isBuilt toIdle s

/-- TRANSMIT rs, B (R152). -/
def execTransmit (rs : Level) (b : Byte) (s : State) : Host.Outcome State Fault Refusal :=
  runOp (.transmit rs b) (seqTransmit s.par s.cfg.dl rs b) s.isBuilt toIdle s

/-- DELAY n (R153). -/
def execDelay (n : Nat) (s : State) : Host.Outcome State Fault Refusal :=
  runOp (.delay n) (seqDelay n) s.isBuilt toIdle s

/-- SELECT rs (R154). -/
def execSelect (rs : Level) (s : State) : Host.Outcome State Fault Refusal :=
  runOp (.select rs) (seqSelect s.par rs) s.isBuilt toIdle s

/-- FRAME8 v (R155): requires WIDTH = 8. The word's `rs` is the level SELECT gave RS before the frame; the frame itself writes only the Data lines and E (log entry 11). The width test comes before that of LIFE, also where no instance exists (DESIGN CHOICE, log entry 15). -/
def execFrame8 (rs : Level) (v : Byte) (s : State) : Host.Outcome State Fault Refusal :=
  if s.cfg.dl then runOp (.frame8 rs v) (seqFrame8 s.par v) s.isBuilt toIdle s
  else .refused .wrongBusWidth

/-- FRAME4 v (R156): requires WIDTH = 4. See `execFrame8` for `rs`. The width test comes before that of LIFE, also where no instance exists (DESIGN CHOICE, log entry 15). -/
def execFrame4 (rs : Level) (v : Nibble) (s : State) : Host.Outcome State Fault Refusal :=
  if s.cfg.dl then .refused .wrongBusWidth
  else runOp (.frame4 rs v) (seqFrame4 s.par v) s.isBuilt toIdle s

/-- FRAME v with n = WIDTH (R157). -/
def execFrame (v : Byte) (s : State) : Host.Outcome State Fault Refusal :=
  runOp (.frame v) (seqFrame s.par s.cfg.dl v) s.isBuilt toIdle s

/-- DRIVE_DATA 4, v (R158): `n` must equal the number of Data handles. The width test comes before that of LIFE, also where no instance exists (DESIGN CHOICE, log entry 15). -/
def execDriveData4 (v : Nibble) (s : State) : Host.Outcome State Fault Refusal :=
  if s.cfg.dl then .refused .wrongBusWidth
  else runOp (.driveData4 v) (seqDriveData4 v) s.isBuilt toIdle s

/-- DRIVE_DATA 8, v (R158): `n` must equal the number of Data handles. The width test comes before that of LIFE, also where no instance exists (DESIGN CHOICE, log entry 15). -/
def execDriveData8 (v : Byte) (s : State) : Host.Outcome State Fault Refusal :=
  if s.cfg.dl then runOp (.driveData8 v) (seqDriveData8 v) s.isBuilt toIdle s
  else .refused .wrongBusWidth

/-- PULSE (R159). -/
def execPulse (s : State) : Host.Outcome State Fault Refusal :=
  runOp .pulse (seqPulse s.par) s.isBuilt toIdle s

end Sys2Proof.Machine
end

