-- ==== Sys2Proof/Machine/Dispatch.lean ====
section
/-! DEFINITION. The dispatch: one arm per row of spec/opcode_table.json, each one call of its meaning. -/

namespace Sys2Proof.Machine

def exec (i : Instr) (s : State) : Host.Outcome State Fault Refusal :=
  match i with
  | .construct d n f => Sys2Proof.Machine.execConstruct d n f s
  | .init => Sys2Proof.Machine.execInit s
  | .turnOn cs => Sys2Proof.Machine.execTurnOn cs s
  | .turnOff => Sys2Proof.Machine.execTurnOff s
  | .clear => Sys2Proof.Machine.execClear s
  | .putChar b => Sys2Proof.Machine.execPutChar b s
  | .putString => Sys2Proof.Machine.execPutString s
  | .clearDisplay => Sys2Proof.Machine.execClearDisplay s
  | .returnHome => Sys2Proof.Machine.execReturnHome s
  | .entryModeRight => Sys2Proof.Machine.execEntryModeRight s
  | .displayOff => Sys2Proof.Machine.execDisplayOff s
  | .displayOnCursorOff => Sys2Proof.Machine.execDisplayOnCursorOff s
  | .displayOnCursorSteady => Sys2Proof.Machine.execDisplayOnCursorSteady s
  | .displayOnCursorBlink => Sys2Proof.Machine.execDisplayOnCursorBlink s
  | .functionSet d n f => Sys2Proof.Machine.execFunctionSet d n f s
  | .force4A => Sys2Proof.Machine.execForce4A s
  | .force4B => Sys2Proof.Machine.execForce4B s
  | .dataWrite b => Sys2Proof.Machine.execDataWrite b s
  | .frame4 rs v => Sys2Proof.Machine.execFrame4 rs v s
  | .frame8 rs v => Sys2Proof.Machine.execFrame8 rs v s
  | .transmit rs b => Sys2Proof.Machine.execTransmit rs b s
  | .sendCommand b => Sys2Proof.Machine.execSendCommand b s
  | .sendData b => Sys2Proof.Machine.execSendData b s
  | .raw4Send v => Sys2Proof.Machine.execRaw4Send v s
  | .select rs => Sys2Proof.Machine.execSelect rs s
  | .driveData4 v => Sys2Proof.Machine.execDriveData4 v s
  | .driveData8 v => Sys2Proof.Machine.execDriveData8 v s
  | .frame v => Sys2Proof.Machine.execFrame v s
  | .pulse => Sys2Proof.Machine.execPulse s
  | .delay n => Sys2Proof.Machine.execDelay n s

end Sys2Proof.Machine
end

