-- ==== Sys2Proof/WellFormed.lean ====
section
/-! DEFINITION. Well-formed instructions: those whose operands have an image in their row of the opcode table. Every operand but one has the very type of its field, so one check is left: the 6-bit field of DELAY (60_exceptions.md rule R199; spec/opcode_table.json, row DELAY). -/

namespace Sys2Proof

/-- The number of time units fits DELAY's 6-bit field (R199: "6 bits suffice for the defaults"). -/
def delayFits (n : Nat) : Bool := decide (n < 64)

/-- An instruction is well-formed when every operand fits its field. -/
def Instr.wf : Instr → Bool
  | .delay n => delayFits n
  | .construct _ _ _ | .init | .turnOn _ | .turnOff | .clear | .putChar _ | .putString => true
  | .clearDisplay | .returnHome | .entryModeRight | .displayOff | .displayOnCursorOff
  | .displayOnCursorSteady | .displayOnCursorBlink | .functionSet _ _ _ | .force4A | .force4B
  | .dataWrite _ => true
  | .frame4 _ _ | .frame8 _ _ => true
  | .transmit _ _ | .sendCommand _ | .sendData _ | .raw4Send _ | .select _ | .driveData4 _
  | .driveData8 _ | .frame _ | .pulse => true

end Sys2Proof
end

