-- ==== Sys2Proof/Decode.lean ====
section
/-! DEFINITION. Decoding a word of each format of spec/opcode_table.json, total and rejecting by name, and encoding an instruction as a word (30_encoding.md rules R80 to R95). A word is a number whose bit 0 is the least significant; no word of this block is stored in bytes, so there is no byte order to choose (20_memory.md rule R66; log entry 3). -/

namespace Sys2Proof

/-- The field of `n` bits of `w` whose lowest bit is `lo`: `w[lo+n-1:lo]` (R15). -/
def field (w lo n : Nat) : Nat := w / 2 ^ lo % 2 ^ n

/-- Bit `i` of `w` (R15). -/
def bitOf (w i : Nat) : Bool := decide (w / 2 ^ i % 2 = 1)

/-- A bit as a number. -/
def bitNat (b : Bool) : Nat := if b then 1 else 0

/-- The width of a word of each format, as the opcode table gives it. -/
def Format.width : Format → Nat
  | .cfg3 => 3
  | .req12 => 12
  | .w9 => 9
  | .latch4 => 6
  | .latch8 => 10
  | .imageTransmit => 9
  | .imageSendCommand => 9
  | .imageSendData => 9
  | .imageRaw4Send => 9
  | .imageSelect => 1
  | .imageDriveData4 => 4
  | .imageDriveData8 => 8
  | .imageFrame => 8
  | .imagePulse => 2
  | .imageDelay => 6

/-- The cursor state of `cs[1:0]`; 3 is reserved (R85, R90). -/
def decodeCursor (cs : Nat) : Except Reject Instr :=
  match cs with
  | 0 => .ok (.turnOn .off)
  | 1 => .ok (.turnOn .blinkOn)
  | 2 => .ok (.turnOn .blinkOff)
  | _ => .error .reservedCursorState

/-- An operation whose `arg` must be zero (R90). -/
def decodeNoArg (arg : Nat) (i : Instr) : Except Reject Instr :=
  if arg = 0 then .ok i else .error .reservedArgument

/-- The request word `{op[3:0], arg[7:0]}` (R88 to R90). -/
def decodeRequest (w : Nat) : Except Reject Instr :=
  match field w 8 4 with
  | 0x1 => if field w 2 6 = 0 then decodeCursor (field w 0 2) else .error .reservedArgument
  | 0x2 => decodeNoArg (field w 0 8) .turnOff
  | 0x3 => decodeNoArg (field w 0 8) .clear
  | 0x4 => .ok (.putChar (BitVec.ofNat 8 (field w 0 8)))
  | 0x5 => decodeNoArg (field w 0 8) .putString
  | 0xF => decodeNoArg (field w 0 8) .init
  | _ => .error .reservedOperation

/-- The command byte of a wire word with RS = 0: the closed set of R83. -/
def decodeCommandByte (b : Nat) : Except Reject Instr :=
  match b with
  | 0x01 => .ok .clearDisplay
  | 0x02 => .ok .returnHome
  | 0x06 => .ok .entryModeRight
  | 0x08 => .ok .displayOff
  | 0x0C => .ok .displayOnCursorOff
  | 0x0E => .ok .displayOnCursorSteady
  | 0x0F => .ok .displayOnCursorBlink
  | 0x33 => .ok .force4A
  | 0x32 => .ok .force4B
  | _ =>
    if field b 5 3 = 1 ∧ field b 0 2 = 0 then
      .ok (.functionSet (bitOf b 4) (bitOf b 3) (bitOf b 2))
    else .error .commandNotEmitted

/-- The wire word `{rs, B[7:0]}` (R82, R83, R92). -/
def decodeWire (w : Nat) : Except Reject Instr :=
  if bitOf w 8 then .ok (.dataWrite (BitVec.ofNat 8 (field w 0 8)))
  else decodeCommandByte (field w 0 8)

/-- The frame `{rs, rw, v[3:0]}` (R81). -/
def decodeLatch4 (w : Nat) : Except Reject Instr :=
  if bitOf w 4 then .error .frameNotWrite
  else .ok (.frame4 (bitOf w 5) (BitVec.ofNat 4 (field w 0 4)))

/-- The frame `{rs, rw, v[7:0]}` (R81). -/
def decodeLatch8 (w : Nat) : Except Reject Instr :=
  if bitOf w 8 then .error .frameNotWrite
  else .ok (.frame8 (bitOf w 9) (BitVec.ofNat 8 (field w 0 8)))

/-- A nine-bit image whose RS bit is fixed by the micro-operation (R95). -/
def decodeFixedRs (w : Nat) (rs : Level) (i : Byte → Instr) : Except Reject Instr :=
  if bitOf w 8 = rs then .ok (i (BitVec.ofNat 8 (field w 0 8))) else .error .wrongRegisterSelect

/-- The word of a format that has the format's width. -/
def decodeBits : Format → Nat → Except Reject Instr
  | .cfg3, w => .ok (.construct (bitOf w 2) (bitOf w 1) (bitOf w 0))
  | .req12, w => decodeRequest w
  | .w9, w => decodeWire w
  | .latch4, w => decodeLatch4 w
  | .latch8, w => decodeLatch8 w
  | .imageTransmit, w => .ok (.transmit (bitOf w 8) (BitVec.ofNat 8 (field w 0 8)))
  | .imageSendCommand, w => decodeFixedRs w false .sendCommand
  | .imageSendData, w => decodeFixedRs w true .sendData
  | .imageRaw4Send, w => decodeFixedRs w false .raw4Send
  | .imageSelect, w => .ok (.select (bitOf w 0))
  | .imageDriveData4, w => .ok (.driveData4 (BitVec.ofNat 4 w))
  | .imageDriveData8, w => .ok (.driveData8 (BitVec.ofNat 8 w))
  | .imageFrame, w => .ok (.frame (BitVec.ofNat 8 w))
  | .imagePulse, w => if w = 2 then .ok .pulse else .error .notAPulse
  | .imageDelay, w => .ok (.delay w)

/-- The instruction a word of a format stands for: total on every number, rejecting by name. -/
def decode (f : Format) (w : Nat) : Except Reject Instr :=
  if w < 2 ^ f.width then decodeBits f w else .error .tooWide

/-! ## The encoder, from the same tables -/

/-- The format of an instruction's row. -/
def Instr.format : Instr → Format
  | .construct _ _ _ => .cfg3
  | .init => .req12
  | .turnOn _ => .req12
  | .turnOff => .req12
  | .clear => .req12
  | .putChar _ => .req12
  | .putString => .req12
  | .clearDisplay => .w9
  | .returnHome => .w9
  | .entryModeRight => .w9
  | .displayOff => .w9
  | .displayOnCursorOff => .w9
  | .displayOnCursorSteady => .w9
  | .displayOnCursorBlink => .w9
  | .functionSet _ _ _ => .w9
  | .force4A => .w9
  | .force4B => .w9
  | .dataWrite _ => .w9
  | .frame4 _ _ => .latch4
  | .frame8 _ _ => .latch8
  | .transmit _ _ => .imageTransmit
  | .sendCommand _ => .imageSendCommand
  | .sendData _ => .imageSendData
  | .raw4Send _ => .imageRaw4Send
  | .select _ => .imageSelect
  | .driveData4 _ => .imageDriveData4
  | .driveData8 _ => .imageDriveData8
  | .frame _ => .imageFrame
  | .pulse => .imagePulse
  | .delay _ => .imageDelay

/-- `cs`, in the order of the source's list (R85). -/
def CursorState.code : CursorState → Nat
  | .off => 0
  | .blinkOn => 1
  | .blinkOff => 2

/-- The word of an instruction in its format. -/
def encode : Instr → Nat
  | .construct d n f => 4 * bitNat d + 2 * bitNat n + bitNat f
  | .init => 0xF00
  | .turnOn cs => 0x100 + cs.code
  | .turnOff => 0x200
  | .clear => 0x300
  | .putChar b => 0x400 + b.toNat
  | .putString => 0x500
  | .clearDisplay => 0x001
  | .returnHome => 0x002
  | .entryModeRight => 0x006
  | .displayOff => 0x008
  | .displayOnCursorOff => 0x00C
  | .displayOnCursorSteady => 0x00E
  | .displayOnCursorBlink => 0x00F
  | .functionSet d n f => 0x020 + 16 * bitNat d + 8 * bitNat n + 4 * bitNat f
  | .force4A => 0x033
  | .force4B => 0x032
  | .dataWrite b => 0x100 + b.toNat
  | .frame4 rs v => 32 * bitNat rs + v.toNat
  | .frame8 rs v => 512 * bitNat rs + v.toNat
  | .transmit rs b => 256 * bitNat rs + b.toNat
  | .sendCommand b => b.toNat
  | .sendData b => 0x100 + b.toNat
  | .raw4Send v => v.toNat
  | .select rs => bitNat rs
  | .driveData4 v => v.toNat
  | .driveData8 v => v.toNat
  | .frame v => v.toNat
  | .pulse => 2
  | .delay n => n

/-! ## A word of the opcode table without its format

The rows of the table are words of fifteen formats, and rows of different formats share words (0x100 is TURN_ON as REQ12, DATA_WRITE as W9, SEND_DATA as an image).
On the hardware the port says which format a word has.
Where only a number of bits and a word are given, the most specific row that the word fits is read: rows with more fixed bits first, rows with equally many in the table's order (log entry 4). -/

/-- One row of the opcode table: its format and its fixed bits. -/
structure TableRow where
  format : Format
  mask : Nat
  value : Nat
  deriving DecidableEq, Repr

/-- The rows of spec/opcode_table.json, rows with more fixed bits first. -/
def tableRows : List TableRow :=
  -- twelve and ten fixed bits: INIT, TURN_OFF, CLEAR, PUT_STRING, TURN_ON
  [⟨.req12, 0xFFF, 0xF00⟩, ⟨.req12, 0xFFF, 0x200⟩, ⟨.req12, 0xFFF, 0x300⟩, ⟨.req12, 0xFFF, 0x500⟩,
   ⟨.req12, 0xFFC, 0x100⟩] ++
  -- nine fixed bits: the wire words without an operand
  [⟨.w9, 0x1FF, 0x001⟩, ⟨.w9, 0x1FF, 0x002⟩, ⟨.w9, 0x1FF, 0x006⟩, ⟨.w9, 0x1FF, 0x008⟩,
   ⟨.w9, 0x1FF, 0x00C⟩, ⟨.w9, 0x1FF, 0x00E⟩, ⟨.w9, 0x1FF, 0x00F⟩, ⟨.w9, 0x1FF, 0x033⟩,
   ⟨.w9, 0x1FF, 0x032⟩] ++
  -- six, four and two: FUNCTION_SET, PUT_CHAR, PULSE
  [⟨.w9, 0x1E3, 0x020⟩, ⟨.req12, 0xF00, 0x400⟩, ⟨.imagePulse, 0x003, 0x002⟩] ++
  -- one: DATA_WRITE, FRAME4, FRAME8, SEND_COMMAND, SEND_DATA, RAW4_SEND
  [⟨.w9, 0x100, 0x100⟩, ⟨.latch4, 0x010, 0x000⟩, ⟨.latch8, 0x100, 0x000⟩,
   ⟨.imageSendCommand, 0x100, 0x000⟩, ⟨.imageSendData, 0x100, 0x100⟩,
   ⟨.imageRaw4Send, 0x100, 0x000⟩] ++
  -- none: CONSTRUCT, TRANSMIT, SELECT, DRIVE_DATA4, DRIVE_DATA8, FRAME, DELAY
  [⟨.cfg3, 0, 0⟩, ⟨.imageTransmit, 0, 0⟩, ⟨.imageSelect, 0, 0⟩, ⟨.imageDriveData4, 0, 0⟩,
   ⟨.imageDriveData8, 0, 0⟩, ⟨.imageFrame, 0, 0⟩, ⟨.imageDelay, 0, 0⟩]

/-- A row's width is `nbits`, as it stands or rounded up to whole bytes. -/
def widthMatches (nbits width : Nat) : Bool :=
  decide (nbits = width) || decide (nbits = (width + 7) / 8 * 8)

/-- The word fits the row: its width, and its fixed bits. -/
def TableRow.fits (nbits w : Nat) (r : TableRow) : Bool :=
  widthMatches nbits r.format.width && decide (w < 2 ^ r.format.width)
    && decide (w &&& r.mask = r.value)

/-- The instruction read from a word of the opcode table of which only the bits are given: the first row the word fits reads it, and a word that row's format reserves (TURN_ON with `cs` = 3) is refused. -/
def decodeTableWord (nbits w : Nat) : Option Instr :=
  match tableRows.find? (TableRow.fits nbits w) with
  | none => none
  | some r =>
    match decode r.format w with
    | .ok i => some i
    | .error _ => none

end Sys2Proof
end

