-- ==== Sys2Proof/Machine/Fetch.lean ====
section
/-! DEFINITION. Which instruction the next step runs, and placing one there (10_state.md rule R24, 30_encoding.md rules R88 to R90, 60_exceptions.md rule R203). The block fetches no instruction from a memory (20_memory.md rule R66): it runs the operation in SEQ, and with SEQ = IDLE it takes what the host presents next. -/

namespace Sys2Proof.Machine

/-- The operation a host's request word names: a reserved word and INIT are refused (R90, R119). -/
def hostRequest (w : BitVec 12) : Option Instr :=
  match decode .req12 w.toNat with
  | .error _ => none
  | .ok i => if i.isPublic then some i else none

/-- The instruction of a construction's word (R89). -/
def constructWord (w : BitVec 3) : Option Instr :=
  match decode .cfg3 w.toNat with
  | .error _ => none
  | .ok i => some i

/-- What the host presents next, taken with SEQ = IDLE.
A request is accepted only in READY (R88); a refused word, and any request while no instance exists, leaves the block as it is (R90, R203: "no event, no state change") and the host goes on to its next item. -/
def takePresented (s : State) : Option Instr × State :=
  match s.port with
  | [] => (none, s)
  | .teardown :: rest => (none, { s with port := rest })
  | .construct w pins :: rest => (constructWord w, { s with port := rest, pinsArg := pins })
  | .request w str :: rest =>
    match hostRequest w with
    | none => (none, { s with port := rest })
    | some i =>
      if s.isReady then (some i, { s with port := rest, str := str })
      else (none, { s with port := rest })

/-- The instruction the next step runs, and the state it runs in: the operation in progress, what is presented waiting (R88), or with SEQ = IDLE what the host presents next. -/
def fetch (s : State) : Option Instr × State :=
  match s.seq with
  | .run i _ => (some i, s)
  | .idle => takePresented s

/-- The word of a request, for the request port. -/
def requestWord (i : Instr) : BitVec 12 := BitVec.ofNat 12 (encode i)

/-- The instructions that need a 4-bit instance (R113, R114, R156, R158). -/
def needsWidth4 (i : Instr) : Bool :=
  match i with
  | .force4A | .force4B | .raw4Send _ | .frame4 _ _ | .driveData4 _ => true
  | _ => false

/-- The instructions that need an 8-bit instance (R155, R158). -/
def needsWidth8 (i : Instr) : Bool :=
  match i with
  | .frame8 _ _ | .driveData8 _ => true
  | _ => false

/-- An instance of the bus width the instruction needs, CFG and PINMAP otherwise as they are. -/
def withWidthFor (i : Instr) (s : State) : State :=
  if needsWidth4 i then { s with cfg := { s.cfg with dl := false }, pinmap := Config.pins 4 }
  else if needsWidth8 i then { s with cfg := { s.cfg with dl := true }, pinmap := Config.pins 8 }
  else s

/-- The RS and RW levels a frame is latched with: those its enclosing transmission's SELECT has driven (R81, R154). -/
def withSelectFor (i : Instr) (s : State) : State :=
  match i with
  | .frame4 rs _ | .frame8 rs _ => { s with pins := { s.pins with rs := rs, rw := s.par.rwWrite } }
  | _ => s

/-- `s` with an instruction placed where the next step takes it: a construction and a public request as what the host presents next (a request to an idle instance in READY, its string operand zeros), INIT and every other row as the operation in SEQ, about to emit its first event (log entry 4). -/
def placeInstr (i : Instr) (s : State) : State :=
  match i with
  | .construct d n f =>
    { s with seq := .idle
             port := .construct (BitVec.ofNat 3 (encode (.construct d n f))) (Config.pins (widthOf d)) :: s.port }
  | .init => { s with seq := .run .init 0, life := .initialising }
  | i =>
    if i.isPublic then
      { s with seq := .idle, life := .ready,
               port := .request (requestWord i) (Memory.ofBytes [0x00#8]) :: s.port }
    else withSelectFor i (withWidthFor i { s with seq := .run i 0, life := .ready })

/-- A word of the opcode table placed where the next step takes it. A word of the request format that is no instruction is presented on the request port, where it is refused; any other that is no instruction fits no port, and nothing is presented. -/
def placeWord (nbits w : Nat) (s : State) : State :=
  match decodeTableWord nbits w with
  | some i => placeInstr i s
  | none =>
    if widthMatches nbits Format.req12.width && decide (w < 4096) then
      { s with seq := .idle, life := .ready, port := [.request (BitVec.ofNat 12 w) []] }
    else { s with seq := .idle, life := .ready, port := [] }

end Sys2Proof.Machine
end

