-- ==== Sys2Proof/Machine/Step.lean ====
section
/-! DEFINITION. One step of the block (10_state.md rule R24): it emits one event of the operation in SEQ, or, idle, takes what the host presents next. -/

namespace Sys2Proof.Machine

/-- One step: the instruction `fetch` names runs; with nothing to run the block holds what it holds (R8, R24). -/
def step (s : State) : Host.Outcome State Fault Refusal :=
  match fetch s with
  | (some i, t) => exec i t
  | (none, t) => .next t

/-- `s` with the instruction of the given bits where `step` takes its next instruction (log entry 4). -/
def State.withFetchWord (s : State) (nbits w : Nat) : State := placeWord nbits w s

end Sys2Proof.Machine
end

