-- ==== Sys2Proof/Machine/Flags.lean ====
section
/-! DEFINITION. The two derived status bits (10_state.md rule R28). No operation reads or writes a flag; there are no condition codes. -/

namespace Sys2Proof.Machine

/-- `BUSY = (SEQ != IDLE)` (R28). -/
def State.busy (s : State) : Bool := decide (s.seq ≠ .idle)

/-- `CFGERR = (LIFE = FAILED)` (R28). -/
def State.cfgErr (s : State) : Bool := decide (s.life = .failed)

end Sys2Proof.Machine
end

