-- ==== Sys2Proof/Machine/Levels.lean ====
section
/-! DEFINITION. The two derived observation levels, Level W (latches) and Level B (transmissions), and the calls of the platform services (00_scope.md rules R7 and R16, 44_transmission.md rules R161 and R162, 60_exceptions.md rule R200). They are functions of a trace; no rule of the block reads them. -/

namespace Sys2Proof.Machine

/-- An item of Level W (R161). -/
inductive WItem where
  /-- `Wait(n)`: a delay met while Enable is 0. -/
  | wait (n : Nat)
  /-- `Latch(rs, rw, n, v)`: the levels held while Enable was asserted; bit `i` of `v` is `D(i)`. -/
  | latch (rs rw : Level) (n : Nat) (v : Byte)
  deriving DecidableEq, Repr

/-- An item of Level B (R162). -/
inductive BItem where
  /-- `Wait(n)`: the power-on settle. -/
  | wait (n : Nat)
  /-- `Tx(rs, B)`. -/
  | tx (rs : Level) (b : Byte)
  deriving DecidableEq, Repr

/-- The number whose bit `i` is `PIN[D(i)]`, over the `n` Data lines (R161). -/
def Pins.dataValue (p : Pins) (n : Nat) : Byte :=
  bitByte p.d0 ||| (bitByte p.d1 <<< 1) ||| (bitByte p.d2 <<< 2) ||| (bitByte p.d3 <<< 3) |||
    (if n = 8 then (bitByte p.d4 <<< 4) ||| (bitByte p.d5 <<< 5) ||| (bitByte p.d6 <<< 6)
      ||| (bitByte p.d7 <<< 7) else 0#8)

/-- Level W of a trace scanned from pin levels `p`, with `n` Data lines (R161): a `Delay` met while E is 0 is a wait; the `SetPin(E, 0)` that ends a pulse yields the latch.
What it yields on a trace the block does not emit (a pulse that is never closed, a second rising edge), and that a line no event has written reads as `p` has it, is the model's choice (DESIGN CHOICE, log entry 24). -/
def levelW (n : Nat) (p : Pins) : List Event → List WItem
  | [] => []
  | .delay m :: es => if p.e then levelW n p es else .wait m :: levelW n p es
  | .setPin s v :: es =>
    if s = .e ∧ v = false ∧ p.e = true then
      .latch p.rs p.rw n (p.dataValue n) :: levelW n (p.set s v) es
    else levelW n (p.set s v) es

/-- Level B of a Level W list (R162): a wait and one 8-bit latch, or a wait and two 4-bit latches, are one transmission; a wait before another wait stays a wait. None where the list does not parse.
R162 gives no item for two 4-bit latches of one byte with different RS or RW levels: the model takes RS to decide (different: none) and drops RW (different: still a `Tx`).
That, and what the other lists outside the rule's forms become, is the model's choice (DESIGN CHOICE, log entry 24); no trace of completed operations yields such a list. -/
def levelB : List WItem → Option (List BItem)
  | [] => some []
  | .wait _ :: .latch rs _ 8 v :: rest => (levelB rest).map (fun l => .tx rs v :: l)
  | .wait _ :: .latch rs _ 4 a :: .latch rs' _ 4 b :: rest =>
    if rs = rs' then (levelB rest).map (fun l => .tx rs ((a <<< 4) ||| b) :: l) else none
  | .wait n :: .wait m :: rest => (levelB (.wait m :: rest)).map (fun l => .wait n :: l)
  | _ => none

/-- A call of a platform service (R200). -/
inductive Call where
  /-- `set_pin(port, pin, level)`. -/
  | setPin (h : Handle) (v : Level)
  /-- `delay(time_units)`. -/
  | delay (n : Nat)
  deriving DecidableEq, Repr

/-- The call an event stands for: `set_pin(PINMAP[s], v)` or `delay(n)` (R16); none where the signal has no handle. -/
def Event.call (m : PinMap) : Event → Option Call
  | .setPin s v => (m.handle s).map (fun h => .setPin h v)
  | .delay n => some (.delay n)

/-- The calls the instance has made, in order (R7, R200). -/
def State.calls (s : State) : List (Option Call) := s.trace.map (Event.call s.pinmap)

end Sys2Proof.Machine
end

