-- ==== Sys2Proof/Safety.lean ====
section
/-! DEFINITION. The terms the claims use: the event lists of the rules written out event by event, when an instruction starts, what is left unchanged, the properties of a trace (R163, R231, R232, R253), and the invariant of the machine. -/

namespace Sys2Proof.Machine

/-! ## The event lists of R152, written out -/

/-- `Events(Transmit(rs, B))` with WIDTH = 8, as R152 lists them. -/
def tx8 (p : Params) (rs : Level) (b : Byte) : List Event :=
  [.delay p.tSettle, .setPin .rs rs, .setPin .rw p.rwWrite,
   .setPin (.d 0) (b.getLsbD 0), .setPin (.d 1) (b.getLsbD 1), .setPin (.d 2) (b.getLsbD 2),
   .setPin (.d 3) (b.getLsbD 3), .setPin (.d 4) (b.getLsbD 4), .setPin (.d 5) (b.getLsbD 5),
   .setPin (.d 6) (b.getLsbD 6), .setPin (.d 7) (b.getLsbD 7),
   .setPin .e true, .delay p.tPulse, .setPin .e false]

/-- `Events(Transmit(rs, B))` with WIDTH = 4, as R152 lists them: bits 4 to 7 first, then bits 0 to 3. -/
def tx4 (p : Params) (rs : Level) (b : Byte) : List Event :=
  [.delay p.tSettle, .setPin .rs rs, .setPin .rw p.rwWrite,
   .setPin (.d 0) (b.getLsbD 4), .setPin (.d 1) (b.getLsbD 5), .setPin (.d 2) (b.getLsbD 6),
   .setPin (.d 3) (b.getLsbD 7), .setPin .e true, .delay p.tPulse, .setPin .e false,
   .setPin (.d 0) (b.getLsbD 0), .setPin (.d 1) (b.getLsbD 1), .setPin (.d 2) (b.getLsbD 2),
   .setPin (.d 3) (b.getLsbD 3), .setPin .e true, .delay p.tPulse, .setPin .e false]

/-- `Events(Transmit(rs, B))` at the bus width of the instance (R160). -/
def txEvents (p : Params) (dl : Bool) (rs : Level) (b : Byte) : List Event :=
  if dl then tx8 p rs b else tx4 p rs b

/-- The events of a transmission: 14 or 17 (R167). -/
def txCount (dl : Bool) : Nat := if dl then 14 else 17

/-- The pin levels after `Transmit(rs, B)` (R164): in 4-bit mode the Data lines hold the low nibble. -/
def txPins (p : Params) (dl : Bool) (rs : Level) (b : Byte) (old : Pins) : Pins :=
  if dl then
    { rs := rs, rw := p.rwWrite, e := false
      d0 := b.getLsbD 0, d1 := b.getLsbD 1, d2 := b.getLsbD 2, d3 := b.getLsbD 3
      d4 := b.getLsbD 4, d5 := b.getLsbD 5, d6 := b.getLsbD 6, d7 := b.getLsbD 7 }
  else
    { old with
      rs := rs, rw := p.rwWrite, e := false
      d0 := b.getLsbD 0, d1 := b.getLsbD 1, d2 := b.getLsbD 2, d3 := b.getLsbD 3 }

/-- The least time a transmission requests (R250). -/
def txTime (p : Params) (dl : Bool) : Nat :=
  if dl then p.tSettle + p.tPulse else p.tSettle + 2 * p.tPulse

/-- The function-set byte of each configuration, as the source's table gives it (R84). -/
def fsTable (dl n f : Bool) : Byte :=
  match dl, n, f with
  | false, false, false => 0x20#8
  | false, false, true => 0x24#8
  | false, true, false => 0x28#8
  | false, true, true => 0x2C#8
  | true, false, false => 0x30#8
  | true, false, true => 0x34#8
  | true, true, false => 0x38#8
  | true, true, true => 0x3C#8

/-- The bytes INIT sends as commands, in order (R111). -/
def initBytes (c : Cfg) : List Byte :=
  (if c.dl then [] else [0x33#8, 0x32#8]) ++ [fsTable c.dl c.n c.f, 0x01#8, 0x02#8, 0x0C#8, 0x06#8]

/-- `Events(INIT)` (R111). -/
def initEvents (p : Params) (c : Cfg) : List Event :=
  .delay p.tPowerOn :: (initBytes c).flatMap (txEvents p c.dl false)

/-- The byte TURN_ON sends (R85, R130). -/
def cursorByte : CursorState → Byte
  | .off => 0x0C#8
  | .blinkOn => 0x0F#8
  | .blinkOff => 0x0E#8

/-- The strobe, as R159 lists it. -/
def strobe (p : Params) : List Event := [.setPin .e true, .delay p.tPulse, .setPin .e false]

/-- The eight Data writes of an 8-bit frame, index upward (R158). -/
def data8 (v : Byte) : List Event :=
  [.setPin (.d 0) (v.getLsbD 0), .setPin (.d 1) (v.getLsbD 1), .setPin (.d 2) (v.getLsbD 2),
   .setPin (.d 3) (v.getLsbD 3), .setPin (.d 4) (v.getLsbD 4), .setPin (.d 5) (v.getLsbD 5),
   .setPin (.d 6) (v.getLsbD 6), .setPin (.d 7) (v.getLsbD 7)]

/-- The four Data writes of a 4-bit frame, index upward (R158). -/
def data4 {w : Nat} (v : BitVec w) : List Event :=
  [.setPin (.d 0) (v.getLsbD 0), .setPin (.d 1) (v.getLsbD 1), .setPin (.d 2) (v.getLsbD 2),
   .setPin (.d 3) (v.getLsbD 3)]

/-- `n` steps of the machine, stopping at the first fault or refusal: the host's run of `core`. -/
def run (n : Nat) (s : State) : Host.Outcome State Fault Refusal := Host.Core.run Sys2Proof.core n s

/-! ## When an instruction starts, and what it leaves -/

/-- The lifecycle in which an instruction may begin: a request in READY (R88), INIT in INITIALISING (R110, R119), a wire word, frame or micro-operation while an instance exists (R95), CONSTRUCT always (R225). -/
def Instr.admittedIn (i : Instr) (l : Life) : Bool :=
  match i with
  | .construct _ _ _ => true
  | .init => decide (l = .initialising)
  | .turnOn _ | .turnOff | .clear | .putChar _ | .putString => decide (l = .ready)
  | .clearDisplay | .returnHome | .entryModeRight | .displayOff | .displayOnCursorOff
  | .displayOnCursorSteady | .displayOnCursorBlink | .functionSet _ _ _ | .force4A | .force4B
  | .dataWrite _ | .frame4 _ _ | .frame8 _ _ | .transmit _ _ | .sendCommand _ | .sendData _
  | .raw4Send _ | .select _ | .driveData4 _ | .driveData8 _ | .frame _ | .pulse
  | .delay _ => decide (l = .ready) || decide (l = .initialising)

/-- The instruction is about to begin: SEQ is `(i, 0)`, its first event not yet emitted, or SEQ is IDLE in a lifecycle that admits it (R24, R88). -/
def CanStart (i : Instr) (s : State) : Prop :=
  s.seq = .run i 0 ∨ (s.seq = .idle ∧ Instr.admittedIn i s.life = true)

/-- The steps that follow one execution of an instruction of `n` events: `n` after its acceptance from IDLE, `n - 1` where that execution emitted its first event (R24). -/
def stepsLeft (s : State) (n : Nat) : Nat := if s.seq = .idle then n else n - 1

/-- `u` is `s` after the events `es` of a completed instruction: they are at the end of the trace, PIN and BYTE are as given, SEQ is IDLE, at least the sum of the delays has passed, and EVERYTHING ELSE IS UNCHANGED: parameters, CFG, PINMAP, STRPOS, LIFE, the recorded error, the host's ports and every byte of the string operand (R8, R34). -/
def Emitted (es : List Event) (pins : Pins) (byte : Byte) (s u : State) : Prop :=
  u = { s with
        pins := pins, byte := byte, seq := .idle
        trace := s.trace ++ es, draws := s.draws + es.length, time := u.time } ∧
  s.time + ((es.map Event.leastTime).sum : Nat) ≤ u.time

/-! ## Properties of a trace -/

/-- No RS, RW or Data line is written while Enable is 1 (R163, R232), Enable being `e` before the first event. -/
def quiet (e : Level) : List Event → Bool
  | [] => true
  | .delay _ :: es => quiet e es
  | .setPin .e v :: es => quiet v es
  | .setPin .rs _ :: es => !e && quiet e es
  | .setPin .rw _ :: es => !e && quiet e es
  | .setPin (.d _) _ :: es => !e && quiet e es

/-- Every rising write of Enable is followed at once by a delay of at least `n` and the falling write (R159, R232). -/
def strobesHeld (n : Nat) : List Event → Bool
  | [] => true
  | .setPin .e true :: es =>
    (match es with
      | .delay m :: .setPin .e false :: _ => decide (n ≤ m)
      | _ => false) && strobesHeld n es
  | _ :: es => strobesHeld n es

/-- Every RS write comes immediately after a delay of at least `n` (R153, R231), `prev` being the delay just before the first event, 0 where there is none. -/
def settled (n prev : Nat) : List Event → Bool
  | [] => true
  | .delay m :: es => settled n m es
  | .setPin .rs _ :: es => decide (n ≤ prev) && settled n 0 es
  | .setPin .rw _ :: es => settled n 0 es
  | .setPin .e _ :: es => settled n 0 es
  | .setPin (.d _) _ :: es => settled n 0 es

/-- Enable after a list of events, being `e` before it. -/
def enableAfter (e : Level) : List Event → Level
  | [] => e
  | .setPin .e v :: es => enableAfter v es
  | _ :: es => enableAfter e es

/-- Every RW write drives RW_WRITE (R51, R154). -/
def rwAlwaysWrite (w : Level) (es : List Event) : Bool :=
  es.all (fun e => match e with | .setPin .rw v => decide (v = w) | _ => true)

/-- Every Data write names one of the `n` Data lines (R23, R158). -/
def linesExist (n : Nat) (es : List Event) : Bool :=
  es.all (fun e => match e with | .setPin (.d i) _ => decide (i.val < n) | _ => true)

/-- The events the operation in progress has still to emit; of PUT_STRING, those of the byte in BYTE. -/
def remaining (s : State) : List Event :=
  match s.seq with
  | .idle => []
  | .run i k => eventsOf ((sequenceOf i s).drop k)

/-- The trace with what the operation in progress has still to emit. -/
def fullTrace (s : State) : List Event := s.trace ++ remaining s

/-! ## The invariant -/

/-- SEQ is IDLE outside construction, or a position inside an operation that LIFE admits (R24, R27). -/
def seqOk (s : State) : Prop :=
  match s.seq with
  | .idle => s.life ≠ .initialising
  | .run i k =>
    k < (sequenceOf i s).length ∧
      ((i = .init ∧ s.life = .initialising) ∨ (i.isPublic = true ∧ s.life = .ready))

/-- During PUT_STRING, BYTE holds the byte at STRPOS, and that byte is no sentinel (R62, R182). -/
def charOk (s : State) : Prop :=
  ∀ k, s.seq = .run .putString k → s.str.read s.strpos = some s.byte ∧ s.byte ≠ Config.sentinel

/-- A presented item's string operand is in canonical form. -/
def Presented.wf : Presented → Prop
  | .request _ m => Memory.wf m
  | .construct _ _ => True
  | .teardown => True

/-- The invariant every step keeps. -/
structure BlockInv (s : State) : Prop where
  /-- The parameters are legal (R10, R233). -/
  parLegal : s.par.legal = true
  /-- SEQ and LIFE agree (R24, R27). -/
  seqOk : seqOk s
  /-- The fetched byte (R62). -/
  charOk : charOk s
  /-- An instance has one distinct handle per signal and `WIDTH` Data handles (R22, R191). -/
  pinmapOk : s.life = .initialising ∨ s.life = .ready →
    s.pinmap.data.length = s.width ∧ s.pinmap.distinct = true
  /-- No instance, no event (R195). -/
  noInstance : s.life = .failed ∨ s.life = .unbuilt → s.trace = []
  /-- The string operands are in canonical form. -/
  strOk : Memory.wf s.str
  portOk : ∀ x ∈ s.port, x.wf
  /-- No line changes while Enable is 1 (R163, R232). -/
  quietOk : quiet false (fullTrace s) = true
  /-- Every strobe is held for at least the minimum (R232). -/
  heldOk : strobesHeld 1 (fullTrace s) = true
  /-- A settle delay of at least the minimum precedes every transmission (R231). -/
  settledOk : settled 5 0 (fullTrace s) = true
  /-- Every operation leaves Enable at 0 (R159, R164). -/
  enableOk : enableAfter false (fullTrace s) = false
  /-- PIN[E] is the level E was last driven to (R23), 0 before the first strobe (R223 row e). -/
  pinE : s.pins.e = enableAfter false s.trace
  /-- RW is always held in write-mode (R51). -/
  rwOk : rwAlwaysWrite s.par.rwWrite (fullTrace s) = true
  /-- Only the Data lines of the bus width are driven (R23). -/
  linesOk : linesExist s.width (fullTrace s) = true

/-! ## What a host's calls emit -/

/-- A call the host makes: one of the five public operations, PUT_STRING with its bytes before the sentinel. -/
inductive HostCall where
  | turnOn (cs : CursorState)
  | turnOff
  | clear
  | putChar (b : Byte)
  | putString (bytes : List Byte)
  deriving DecidableEq, Repr

/-- The call as the request port carries it (R89). -/
def HostCall.presented : HostCall → Presented
  | .turnOn cs => .request (BitVec.ofNat 12 (0x100 + cs.code)) []
  | .turnOff => .request 0x200#12 []
  | .clear => .request 0x300#12 []
  | .putChar b => .request (BitVec.ofNat 12 (0x400 + b.toNat)) []
  | .putString bytes => .request 0x500#12 (Memory.ofBytes (bytes ++ [0x00#8]))

/-- The transmissions of a call, `(rs, B)` in order: Level B (R130, R134, R140, R180, R181). -/
def HostCall.txs : HostCall → List (Level × Byte)
  | .turnOn cs => [(false, cursorByte cs)]
  | .turnOff => [(false, 0x08#8)]
  | .clear => [(false, 0x01#8), (false, 0x02#8)]
  | .putChar b => [(true, b)]
  | .putString bytes => bytes.map (fun b => (true, b))

/-- A string the host passes holds its sentinel only at its end (R181). -/
def HostCall.wf : HostCall → Prop
  | .putString bytes => ∀ b ∈ bytes, b ≠ 0x00#8
  | .turnOn _ | .turnOff | .clear | .putChar _ => True

/-- The events of a list of transmissions. -/
def txsEvents (p : Params) (dl : Bool) (l : List (Level × Byte)) : List Event :=
  l.flatMap (fun x => txEvents p dl x.1 x.2)

/-- The steps a call takes: its acceptance, and one per event (R24). -/
def HostCall.steps (p : Params) (dl : Bool) (c : HostCall) : Nat :=
  1 + (txsEvents p dl c.txs).length

end Sys2Proof.Machine
end

