-- ==== Sys2Proof/Certificates/Slice0/Obligations.lean ====
section
/-! DEFINITION. The statements for the provers. Each says what the rule it cites says; a docstring names the log entry where a clause is the model's own choice. -/

open Sys2Proof Sys2Proof.Machine

/-! ## Encodings (30_encoding.md) -/

/-- Decoding the word of a well-formed instruction in its format gives the instruction back, with every operand at every value: no bit of an encoding is dropped. -/
def Obligations.DecodeOfEncodeIsTheInstruction : Prop :=
  ∀ i : Instr, i.wf = true → decode i.format (encode i) = .ok i

/-- Every word a format decodes is the word of that one well-formed instruction: within a format no word has two meanings and no reserved word falls through to a neighbour. -/
def Obligations.EncodeOfDecodeIsTheWord : Prop :=
  ∀ (f : Format) (w : Nat) (i : Instr), decode f w = .ok i →
    i.wf = true ∧ i.format = f ∧ encode i = w

/-- Words written out from the opcode table, bit by bit, decode to their instructions. -/
def Obligations.TableWordsDecode : Prop :=
  decode .cfg3 0b110 = .ok (.construct true true false) ∧
  decode .req12 0b000100000010 = .ok (.turnOn .blinkOff) ∧
  decode .req12 0b010001000001 = .ok (.putChar 0x41#8) ∧
  decode .w9 0b000111000 = .ok (.functionSet true true false) ∧
  decode .w9 0b101000001 = .ok (.dataWrite 0x41#8) ∧
  decode .latch4 0b101100 = .ok (.frame4 true 0xC#4) ∧
  decode .latch8 0b0000111000 = .ok (.frame8 false 0x38#8) ∧
  decode .imagePulse 0b10 = .ok .pulse

/-- R90: the request words the host may not use, and no others, are refused; the words that are left name their operations. `op` is `w[11:8]` and `arg` is `w[7:0]`. -/
def Obligations.ReservedRequestWordsAreRefused : Prop :=
  ∀ w : BitVec 12,
    (hostRequest w = none ↔
      w.extractLsb' 8 4 = 0x0#4 ∨ (0x6#4).toNat ≤ (w.extractLsb' 8 4).toNat ∨
      (w.extractLsb' 8 4 = 0x1#4 ∧ (w.extractLsb' 0 2 = 3#2 ∨ w.extractLsb' 2 6 ≠ 0#6)) ∨
      ((w.extractLsb' 8 4 = 0x2#4 ∨ w.extractLsb' 8 4 = 0x3#4 ∨ w.extractLsb' 8 4 = 0x5#4) ∧
        w.extractLsb' 0 8 ≠ 0x00#8)) ∧
    (w = 0x100#12 → hostRequest w = some (.turnOn .off)) ∧
    (w = 0x101#12 → hostRequest w = some (.turnOn .blinkOn)) ∧
    (w = 0x102#12 → hostRequest w = some (.turnOn .blinkOff)) ∧
    (w = 0x200#12 → hostRequest w = some .turnOff) ∧
    (w = 0x300#12 → hostRequest w = some .clear) ∧
    (w.extractLsb' 8 4 = 0x4#4 → hostRequest w = some (.putChar (w.extractLsb' 0 8))) ∧
    (w = 0x500#12 → hostRequest w = some .putString)

/-- R84: the formula `fs` gives the byte of each of the eight rows of the source's table. -/
def Obligations.FunctionSetFormulaIsTheTable : Prop :=
  fs false false false = 0x20#8 ∧ fs false false true = 0x24#8 ∧
  fs false true false = 0x28#8 ∧ fs false true true = 0x2C#8 ∧
  fs true false false = 0x30#8 ∧ fs true false true = 0x34#8 ∧
  fs true true false = 0x38#8 ∧ fs true true true = 0x3C#8

/-- R86: the high nibble is the byte shifted right by 4, the low nibble its remainder, and the two make the byte again; and the bit test of R87 reads one bit of the byte. -/
def Obligations.NibblesAndBitsOfAByte : Prop :=
  ∀ b : Byte, (((hi b).setWidth 8 <<< 4) ||| (lo b).setWidth 8 = b) ∧
    (hi b).toNat = b.toNat / 16 ∧ (lo b).toNat = b.toNat % 16 ∧
    ∀ i : Fin 8, bit b i.val = b.getLsbD i.val

/-! ## The step (R24, R88, R203) -/

/-- A step runs the decoded instruction: the operation in SEQ; or, idle and READY, the operation the host's next request word names, with that item taken off the port and its string operand in the operand space; or, idle, the construction the host presents next, with its Pin Assignment presented.
That a presented construction runs in every lifecycle, READY included, is the model's reading (R225; log entry 9); the fields that hold what the host presents, its Pin Assignment and its string are the model's (log entry 22); a wire word, frame or micro-operation as the operation in SEQ is the model's choice (log entry 16). -/
def Obligations.StepRunsTheInstruction : Prop :=
  (∀ (s : State) (i : Instr) (k : Nat), s.seq = .run i k → step s = exec i s) ∧
  (∀ (s : State) (i : Instr) (w : BitVec 12) (m : Memory) (rest : List Presented),
    s.seq = .idle → s.life = .ready → s.port = .request w m :: rest → i.isPublic = true →
    decode .req12 w.toNat = .ok i → step s = exec i { s with port := rest, str := m }) ∧
  (∀ (s : State) (i : Instr) (w : BitVec 3) (pins : PinMap) (rest : List Presented),
    s.seq = .idle → s.port = .construct w pins :: rest → decode .cfg3 w.toNat = .ok i →
    step s = exec i { s with port := rest, pinsArg := pins })

/-- What the host presents to an idle block without effect: a refused word (reserved, or INIT from the host: R90, R119); any request while no instance is READY (R88, R203); the release of the instance (R226).
It emits nothing and changes nothing of the block; that the host then goes on to its next item is the model's choice (log entry 9).
R226 says a release emits nothing and is a no-op; that LIFE stays as it is, so that the block is as it was to a later request, is the model's choice (log entry 22).
With nothing presented the block holds its state (log entry 10). -/
def Obligations.WhatIsNotAcceptedChangesNothing : Prop :=
  ∀ s : State, s.seq = .idle →
    (∀ w m rest, s.port = .request w m :: rest → hostRequest w = none →
      step s = .next { s with port := rest }) ∧
    (∀ w m rest, s.life ≠ .ready → s.port = .request w m :: rest →
      step s = .next { s with port := rest }) ∧
    (∀ rest, s.port = .teardown :: rest → step s = .next { s with port := rest }) ∧
    (s.port = [] → step s = .next s)

/-- R88: while an operation is in progress what the host presents waits: a step leaves the port as it is, and does what it would do with anything else at the port.
R88 speaks of requests; that a construction waits as well is the model's reading (log entry 9). The host's side as fields of State is the model's choice (log entry 22). -/
def Obligations.PresentedItemsWaitWhileBusy : Prop :=
  ∀ (s : State), s.busy = true →
    (∀ t, step s = .next t → t.port = s.port) ∧
    (∀ (p : List Presented) (t : State), step s = .next t →
      step { s with port := p } = .next { t with port := p })

/-- The acceptance of an operation (R24, R88): with SEQ = IDLE in a lifecycle that admits it, `pc <- (op, 0)` and nothing else: no event, no pin, no time.
For PUT_STRING of a string that is not empty it also does `STRPOS <- 0` and fetches byte 0 into BYTE, since whether the string is empty decides where SEQ goes (log entry 7).
That wire words, frames and micro-operations are accepted by themselves is the model's choice (log entry 16). -/
def Obligations.AcceptanceGoesToTheFirstPosition : Prop :=
  (∀ (i : Instr) (s : State), (∀ d n f, i ≠ .construct d n f) → i ≠ .putString →
    (needsWidth4 i = true → s.cfg.dl = false) → (needsWidth8 i = true → s.cfg.dl = true) →
    s.seq = .idle → Instr.admittedIn i s.life = true →
    exec i s = .next { s with seq := .run i 0 }) ∧
  (∀ (s : State) (bytes junk : List Byte) (c : Byte), s.seq = .idle → s.life = .ready →
    s.str = Memory.ofBytes (bytes ++ 0x00#8 :: junk) → (∀ b ∈ bytes, b ≠ 0x00#8) →
    bytes.head? = some c →
    exec .putString s = .next { s with strpos := 0, byte := c, seq := .run .putString 0 })

/-- With SEQ = (i, k), every instruction but CONSTRUCT and PUT_STRING, at the bus width its frames need, emits event number `k` of `Events(i)` and goes to (i, k+1), or to IDLE after the last; INIT's last event makes LIFE READY. The order of the pin writes inside a transmission is the spec's own choice (D6 to D10; log entry 13). For the wire words, frames and micro-operations, a SEQ of their own is the model's choice (log entry 16). -/
def Obligations.EventNumberKIsEmitted : Prop :=
  ∀ (i : Instr) (s : State) (k : Nat) (m : Micro),
    (∀ d n f, i ≠ .construct d n f) → i ≠ .putString →
    (needsWidth4 i = true → s.cfg.dl = false) → (needsWidth8 i = true → s.cfg.dl = true) →
    s.seq = .run i k → (sequenceOf i s)[k]? = some m →
    exec i s = .next { emit m s with
      seq := if k + 1 < (sequenceOf i s).length then .run i (k + 1) else .idle
      life := if i = .init ∧ k + 1 = (sequenceOf i s).length then .ready else s.life }

/-- R28: the two derived status bits. -/
def Obligations.StatusBits : Prop :=
  ∀ s : State, (s.busy = true ↔ s.seq ≠ .idle) ∧ (s.cfgErr = true ↔ s.life = .failed)

/-! ## Reset and construction (R33, R110, R191, R195) -/

/-- What reset leaves of the values the spec gives (R33, third column; R222; R223 row e): INIT is at its first event, the trace is empty, no time has passed, BUSY is 1, CFGERR is 0, E is 0.
The spec gives 50, 5, 1 as the defaults and least legal values of the delays (R10, D3); that the instance reset builds has exactly these is the model's choice (log entry 2). -/
def Obligations.ResetValues : Prop :=
  State.reset.seq = .run .init 0 ∧ State.reset.life = .initialising ∧ State.reset.trace = [] ∧
  State.reset.time = 0 ∧ State.reset.busy = true ∧ State.reset.cfgErr = false ∧
  State.reset.pins.get .e = false ∧
  State.reset.par.tPowerOn = 50 ∧ State.reset.par.tSettle = 5 ∧ State.reset.par.tPulse = 1

/-- CONSTRUCT with a Data list of the bus width and distinct handles writes these fields: CFG and PINMAP are the arguments, LIFE is INITIALISING, SEQ is (INIT, 0), TRACE is empty, TIME is 0 (R110, R33), and the record `error` is none. Every field not listed is unchanged. That it does so in every lifecycle is the model's reading (log entry 9); that the record exists and is cleared here is the model's choice (log entries 9 and 17).
The host's side as fields of State is the model's choice (log entry 22). -/
def Obligations.ConstructBeginsTheInstance : Prop :=
  ∀ (d n f : Bool) (s : State), s.seq = .idle →
    s.pinsArg.data.length = (if d then 8 else 4) →
    (s.pinsArg.rs :: s.pinsArg.rw :: s.pinsArg.e :: s.pinsArg.data).Nodup →
    exec (.construct d n f) s = .next { s with
      cfg := { dl := d, n := n, f := f }, pinmap := s.pinsArg, life := .initialising
      seq := .run .init 0, error := none, trace := [], time := 0 }

/-- What taking ConfigError leaves (R195): TRACE is empty, no pin is driven, CFG and PINMAP are not written, LIFE is FAILED, CFGERR is 1, SEQ is IDLE and BUSY 0; the parameters, BYTE, STRPOS and the host's side are unchanged; the record `error` is written (the statement after this one). R195 speaks of the failing construction; that a block which holds a live instance takes it as well is the model's reading (log entry 9), and that the CFG, PINMAP and pin levels of an instance that stood before stay is the model's choice (log entry 17).
The host's side as fields of State is the model's choice (log entry 22). -/
def Obligations.MismatchedDataListTakesConfigError : Prop :=
  ∀ (d n f : Bool) (s : State), s.seq = .idle →
    s.pinsArg.data.length ≠ (if d then 8 else 4) →
    ∃ t, exec (.construct d n f) s = .next t ∧
      t.trace = [] ∧ t.pins = s.pins ∧ t.cfg = s.cfg ∧ t.pinmap = s.pinmap ∧
      t.life = .failed ∧ t.cfgErr = true ∧ t.seq = .idle ∧ t.busy = false ∧
      t.par = s.par ∧ t.byte = s.byte ∧ t.strpos = s.strpos ∧ t.port = s.port ∧
      t.pinsArg = s.pinsArg ∧ ∀ k, t.str.read k = s.str.read k

/-- ConfigError records the code 1 and the two lengths (R190, R191: the code and the pair are the spec's own choice; that a field of State keeps them is the model's, log entry 17).
That it is taken in every lifecycle is the model's reading (log entry 9). -/
def Obligations.ConfigErrorIsRecorded : Prop :=
  ∀ (d n f : Bool) (s : State), s.seq = .idle →
    s.pinsArg.data.length ≠ (if d then 8 else 4) →
    ∃ t, exec (.construct d n f) s = .next t ∧
      t.error = some { code := 1, dataLen := s.pinsArg.data.length, width := if d then 8 else 4 }

/-- A Pin Assignment of the right length that gives two signals one handle is refused (92_eei_decisions.md D25, U15). That CONSTRUCT stops by name there is log entry 15.
That it is so in every lifecycle, and is tested after the length of the Data list, are log entries 9 and 15. -/
def Obligations.SharedHandlesAreRefused : Prop :=
  ∀ (d n f : Bool) (s : State), s.seq = .idle →
    s.pinsArg.data.length = (if d then 8 else 4) →
    ¬ (s.pinsArg.rs :: s.pinsArg.rw :: s.pinsArg.e :: s.pinsArg.data).Nodup →
    exec (.construct d n f) s = .refused .duplicateHandles

/-- R196: FAILED is terminal: unless the host presents a new construction, a step of a FAILED block emits nothing, drives no pin, whatever request is presented, and leaves it FAILED and idle.
That a construction is possible in FAILED (log entry 9), that a step with nothing presented leaves the state (log entry 10) and that a release does (log entry 22) are the model's. -/
def Obligations.FailedIsTerminal : Prop :=
  ∀ s t : State, s.life = .failed → s.seq = .idle →
    (∀ w pins, s.port.head? ≠ some (.construct w pins)) → step s = .next t →
    t.life = .failed ∧ t.seq = .idle ∧ t.cfgErr = true ∧ t.trace = s.trace ∧ t.pins = s.pins

/-- The first two events of every instance are the power-on settle and the settle of the first transmission (R112, R222).
That a construction begins an instance in every lifecycle is the model's reading (log entry 9). -/
def Obligations.PowerOnSettleComesFirst : Prop :=
  ∀ (d n f : Bool) (s t : State), exec (.construct d n f) s = .next t → t.life = .initialising →
    ∃ u v, step t = .next u ∧ step u = .next v ∧
      u.trace = [.delay s.par.tPowerOn] ∧ v.trace = [.delay s.par.tPowerOn, .delay s.par.tSettle]

/-- R33, last column: a constructed instance is READY and idle after 71 (8-bit) or 120 (4-bit) steps, whatever the host presents meanwhile, with the trace `Events(INIT)`, BYTE 0x06 and the pin levels of the table, its configuration unchanged, and at least 80 or 99 units passed. The order of the pin writes inside a transmission is the spec's own choice (D6 to D10; log entry 13).
That a construction begins an instance in every lifecycle is the model's reading (log entry 9). -/
def Obligations.ConstructedInstanceBecomesReady : Prop :=
  ∀ (d n f : Bool) (s t : State), s.par.legal = true →
    exec (.construct d n f) s = .next t → t.life = .initialising →
    ∃ u, run (if d then 71 else 120) t = .next u ∧
      u.life = .ready ∧ u.seq = .idle ∧ u.busy = false ∧ u.cfgErr = false ∧
      u.cfg = { dl := d, n := n, f := f } ∧ u.pinmap = s.pinsArg ∧ u.byte = 0x06#8 ∧
      u.trace = initEvents s.par { dl := d, n := n, f := f } ∧
      u.pins.get .rs = false ∧ u.pins.get .rw = s.par.rwWrite ∧ u.pins.get .e = false ∧
      u.pins.get (.d 0) = false ∧ u.pins.get (.d 1) = true ∧ u.pins.get (.d 2) = true ∧
      u.pins.get (.d 3) = false ∧
      (d = true → u.pins.get (.d 4) = false ∧ u.pins.get (.d 5) = false ∧
        u.pins.get (.d 6) = false ∧ u.pins.get (.d 7) = false) ∧
      u.port = t.port ∧ ((if d then 80 else 99 : Nat) : Rat) ≤ u.time

/-! ## Every instruction completes: its own events, its end state, and nothing else changed

`Emitted es pins byte s u` says that `u` is `s` with `es` at the end of the trace, PIN and BYTE as given, SEQ = IDLE, at least the sum of the delays passed, and every other field unchanged. -/

/-- INIT (R111): the six steps in order; afterwards LIFE is READY. The order of the pin writes inside a transmission is the spec's own choice (D6 to D10; log entry 13). -/
def Obligations.InitCompletes : Prop :=
  ∀ s : State, CanStart .init s →
    ∃ t u, exec .init s = .next t ∧ run (stepsLeft s (if s.cfg.dl then 71 else 120)) t = .next u ∧
      Emitted (initEvents s.par s.cfg) (txPins s.par s.cfg.dl false 0x06#8 s.pins) 0x06#8
        { s with life := .ready } u

/-- TURN_ON cs (R130): exactly one command, 0x0C, 0x0F or 0x0E. The order of the pin writes inside a transmission is the spec's own choice (D6 to D9; log entry 13). -/
def Obligations.TurnOnCompletes : Prop :=
  ∀ (cs : CursorState) (s : State), CanStart (.turnOn cs) s →
    ∃ t u, exec (.turnOn cs) s = .next t ∧ run (stepsLeft s (txCount s.cfg.dl)) t = .next u ∧
      Emitted (txEvents s.par s.cfg.dl false (cursorByte cs))
        (txPins s.par s.cfg.dl false (cursorByte cs) s.pins) (cursorByte cs) s u

/-- TURN_OFF (R134): exactly one command, 0x08; nothing of the block but its outputs changes. The order of the pin writes inside a transmission is the spec's own choice (D6 to D9; log entry 13). -/
def Obligations.TurnOffCompletes : Prop :=
  ∀ s : State, CanStart .turnOff s →
    ∃ t u, exec .turnOff s = .next t ∧ run (stepsLeft s (txCount s.cfg.dl)) t = .next u ∧
      Emitted (txEvents s.par s.cfg.dl false 0x08#8)
        (txPins s.par s.cfg.dl false 0x08#8 s.pins) 0x08#8 s u

/-- CLEAR (R140, R143): 0x01 then 0x02, two complete transmissions. The order of the pin writes inside a transmission is the spec's own choice (D6 to D9; log entry 13). -/
def Obligations.ClearCompletes : Prop :=
  ∀ s : State, CanStart .clear s →
    ∃ t u, exec .clear s = .next t ∧ run (stepsLeft s (2 * txCount s.cfg.dl)) t = .next u ∧
      Emitted (txEvents s.par s.cfg.dl false 0x01#8 ++ txEvents s.par s.cfg.dl false 0x02#8)
        (txPins s.par s.cfg.dl false 0x02#8 s.pins) 0x02#8 s u

/-- PUT_CHAR b (R180): exactly one data transmission of that byte, any of 0x00 to 0xFF. The order of the pin writes inside a transmission is the spec's own choice (D6 to D9; log entry 13). -/
def Obligations.PutCharCompletes : Prop :=
  ∀ (b : Byte) (s : State), CanStart (.putChar b) s →
    ∃ t u, exec (.putChar b) s = .next t ∧ run (stepsLeft s (txCount s.cfg.dl)) t = .next u ∧
      Emitted (txEvents s.par s.cfg.dl true b) (txPins s.par s.cfg.dl true b s.pins) b s u

/-- PUT_STRING (R181) of a string that is not empty: one data transmission per byte before the first 0x00, in order; what stands after it is not sent; STRPOS ends at the length; BYTE and PIN are those of the last byte. The order of the pin writes inside a transmission is the spec's own choice (D6 to D9; log entry 13). That STRPOS ends at the length is log entry 7. -/
def Obligations.PutStringCompletes : Prop :=
  ∀ (s : State) (bytes junk : List Byte) (last : Byte), s.seq = .idle → s.life = .ready →
    s.str = Memory.ofBytes (bytes ++ 0x00#8 :: junk) → (∀ b ∈ bytes, b ≠ 0x00#8) →
    bytes.getLast? = some last →
    ∃ t u, exec .putString s = .next t ∧
      run (bytes.length * txCount s.cfg.dl) t = .next u ∧
      Emitted (bytes.flatMap (txEvents s.par s.cfg.dl true))
        (txPins s.par s.cfg.dl true last s.pins) last { s with strpos := bytes.length } u

/-- PUT_STRING of the empty string (R181): no event at all, no pin, no time; SEQ goes directly to IDLE at the acceptance (R24). -/
def Obligations.EmptyStringEmitsNothing : Prop :=
  ∀ (s : State) (junk : List Byte), s.seq = .idle → s.life = .ready →
    s.str = Memory.ofBytes (0x00#8 :: junk) →
    exec .putString s = .next { s with strpos := 0 }

/-- PUT_STRING of an operand that holds no 0x00 is refused (93_implementation_defined.md U13). That it is refused at its acceptance is the model's choice (log entry 14). -/
def Obligations.UnterminatedStringIsRefused : Prop :=
  ∀ s : State, s.seq = .idle → s.life = .ready → (∀ k, s.str.read k ≠ some 0x00#8) →
    exec .putString s = .refused .unterminatedString

/-- The order of the fetches of PUT_STRING (R182): before the last event of a byte a step reads no byte of the operand; at that last event it fetches the next: the sentinel ends the operation and is not sent, any other byte is held in BYTE. So byte `k` is not fetched before byte `k-1` has been transmitted. That the fetch into BYTE happens in the very step of the last event of the byte before is the model's own inference (log entry 7, DEDUCED): R25 and R62 put it at the start of the transmission. The order of the pin writes inside a transmission is the spec's own choice (D6 to D9; log entry 13). -/
def Obligations.StringBytesAreFetchedLazily : Prop :=
  ∀ (s : State) (k : Nat), s.seq = .run .putString k →
    (k + 1 < txCount s.cfg.dl → ∃ t, exec .putString s = .next t ∧
      t.seq = .run .putString (k + 1) ∧ t.byte = s.byte ∧ t.strpos = s.strpos ∧
      t.trace = s.trace ++ [(txEvents s.par s.cfg.dl true s.byte).getD k (.delay 0)] ∧
      ∀ m, exec .putString { s with str := m } = .next { t with str := m }) ∧
    (k + 1 = txCount s.cfg.dl →
      (s.str.read (s.strpos + 1) = some 0x00#8 → ∃ t, exec .putString s = .next t ∧
        t.seq = .idle ∧ t.byte = s.byte ∧ t.strpos = s.strpos + 1 ∧
        t.trace = s.trace ++ [.setPin .e false]) ∧
      (∀ c, c ≠ 0x00#8 → s.str.read (s.strpos + 1) = some c → ∃ t, exec .putString s = .next t ∧
        t.seq = .run .putString 0 ∧ t.byte = c ∧ t.strpos = s.strpos + 1 ∧
        t.trace = s.trace ++ [.setPin .e false]))

/-- The wire words without an operand (R116, R131, R132, R133, R135, R141, R142): each is one command transmission of its byte. The order of the pin writes inside a transmission is the spec's own choice (D6 to D9; log entry 13). That the row runs by itself is the model's choice (log entry 16). -/
def Obligations.CommandWordsComplete : Prop :=
  ∀ (i : Instr) (b : Byte) (s : State),
    (i, b) ∈ [(Instr.clearDisplay, 0x01#8), (.returnHome, 0x02#8), (.entryModeRight, 0x06#8),
      (.displayOff, 0x08#8), (.displayOnCursorOff, 0x0C#8), (.displayOnCursorSteady, 0x0E#8),
      (.displayOnCursorBlink, 0x0F#8)] →
    CanStart i s →
    ∃ t u, exec i s = .next t ∧ run (stepsLeft s (txCount s.cfg.dl)) t = .next u ∧
      Emitted (txEvents s.par s.cfg.dl false b) (txPins s.par s.cfg.dl false b s.pins) b s u

/-- FUNCTION_SET with any three fields is one command transmission of the table's byte (R84) for the fields of its own word. R115 sends it with the fields of CFG only; the form with other fields, and that CFG does not change, is the model's choice (log entry 20), and that the row runs by itself is log entry 16. The order of the pin writes inside a transmission is the spec's own choice (D6 to D9; log entry 13). -/
def Obligations.FunctionSetCompletes : Prop :=
  ∀ (d n f : Bool) (s : State), CanStart (.functionSet d n f) s →
    ∃ t u, exec (.functionSet d n f) s = .next t ∧ run (stepsLeft s (txCount s.cfg.dl)) t = .next u ∧
      Emitted (txEvents s.par s.cfg.dl false (fsTable d n f))
        (txPins s.par s.cfg.dl false (fsTable d n f) s.pins) (fsTable d n f) s u

/-- FORCE4_A, FORCE4_B and RAW4_SEND v on a 4-bit bus (R113, R114): the events of a 4-bit command transmission of 0x33, 0x32, v, which is the spec's own decision (D10; log entry 13), as is the order of the pin writes (D6 to D9). BYTE takes the byte (log entry 12). That the row runs by itself is the model's choice (log entry 16). -/
def Obligations.RawFourBitPathCompletes : Prop :=
  ∀ (i : Instr) (b : Byte) (s : State),
    ((i = .force4A ∧ b = 0x33#8) ∨ (i = .force4B ∧ b = 0x32#8) ∨ i = .raw4Send b) →
    s.cfg.dl = false → CanStart i s →
    ∃ t u, exec i s = .next t ∧ run (stepsLeft s 17) t = .next u ∧
      Emitted (tx4 s.par false b) (txPins s.par false false b s.pins) b s u

/-- TRANSMIT rs, B: the event list that R152 writes out at the bus width, and the pin levels of R164, which the spec derives from it. The order of the RS, RW and Data writes in that list is the spec's own choice (R163, D6 to D9), taken over by the model (log entry 13); that the row runs by itself is log entry 16. -/
def Obligations.TransmitCompletes : Prop :=
  ∀ (rs : Level) (b : Byte) (s : State), CanStart (.transmit rs b) s →
    ∃ t u, exec (.transmit rs b) s = .next t ∧ run (stepsLeft s (txCount s.cfg.dl)) t = .next u ∧
      Emitted (txEvents s.par s.cfg.dl rs b) (txPins s.par s.cfg.dl rs b s.pins) b s u

/-- SEND_COMMAND B is Transmit(0, B); SEND_DATA B and DATA_WRITE B are Transmit(1, B) (R150, R151, R184). The order of the pin writes inside a transmission is the spec's own choice (D6 to D9; log entry 13). That the row runs by itself is the model's choice (log entry 16). -/
def Obligations.SendCommandAndSendDataComplete : Prop :=
  ∀ (i : Instr) (rs : Level) (b : Byte) (s : State),
    ((i = .sendCommand b ∧ rs = false) ∨ (i = .sendData b ∧ rs = true) ∨
      (i = .dataWrite b ∧ rs = true)) →
    CanStart i s →
    ∃ t u, exec i s = .next t ∧ run (stepsLeft s (txCount s.cfg.dl)) t = .next u ∧
      Emitted (txEvents s.par s.cfg.dl rs b) (txPins s.par s.cfg.dl rs b s.pins) b s u

/-- FRAME8 v, and FRAME v, on an 8-bit bus (R155, R157): the eight Data lines index upward, then the strobe; 11 events; RS, RW and BYTE as they were. The upward order is the spec's own choice (D6; log entry 13). That the row runs by itself is the model's choice (log entry 16). -/
def Obligations.EightBitFramesComplete : Prop :=
  ∀ (i : Instr) (v : Byte) (s : State), ((∃ rs, i = .frame8 rs v) ∨ i = .frame v) →
    s.cfg.dl = true → CanStart i s →
    ∃ t u, exec i s = .next t ∧ run (stepsLeft s 11) t = .next u ∧
      Emitted (data8 v ++ strobe s.par)
        { s.pins with
          e := false, d0 := v.getLsbD 0, d1 := v.getLsbD 1, d2 := v.getLsbD 2, d3 := v.getLsbD 3
          d4 := v.getLsbD 4, d5 := v.getLsbD 5, d6 := v.getLsbD 6, d7 := v.getLsbD 7 }
        s.byte s u

/-- FRAME4 v on a 4-bit bus (R156): the four Data lines index upward, then the strobe; 7 events; RS, RW and BYTE as they were. The upward order is the spec's own choice (D6; log entry 13). That the row runs by itself is the model's choice (log entry 16). -/
def Obligations.FourBitFrameCompletes : Prop :=
  ∀ (rs : Level) (v : Nibble) (s : State), s.cfg.dl = false → CanStart (.frame4 rs v) s →
    ∃ t u, exec (.frame4 rs v) s = .next t ∧ run (stepsLeft s 7) t = .next u ∧
      Emitted (data4 v ++ strobe s.par)
        { s.pins with
          e := false, d0 := v.getLsbD 0, d1 := v.getLsbD 1, d2 := v.getLsbD 2, d3 := v.getLsbD 3 }
        s.byte s u

/-- FRAME v on a 4-bit bus (R157): the loop of R158 drives bits 0 to 3 of `v` (log entry 11), then the strobe. The order of the pin writes inside a transmission is the spec's own choice (D6 to D9; log entry 13). That the row runs by itself is the model's choice (log entry 16). -/
def Obligations.FrameOnFourLinesCompletes : Prop :=
  ∀ (v : Byte) (s : State), s.cfg.dl = false → CanStart (.frame v) s →
    ∃ t u, exec (.frame v) s = .next t ∧ run (stepsLeft s 7) t = .next u ∧
      Emitted (data4 v ++ strobe s.par)
        { s.pins with
          e := false, d0 := v.getLsbD 0, d1 := v.getLsbD 1, d2 := v.getLsbD 2, d3 := v.getLsbD 3 }
        s.byte s u

/-- DRIVE_DATA n, v at n = WIDTH (R158): every one of the `n` lines is written with its bit of `v`, and no other line changes. That the index goes upward is the spec's own choice (D6), taken over by the model (log entry 13); that the row runs by itself is log entry 16. -/
def Obligations.DriveDataCompletes : Prop :=
  (∀ (v : Nibble) (s : State), s.cfg.dl = false → CanStart (.driveData4 v) s →
    ∃ t u, exec (.driveData4 v) s = .next t ∧ run (stepsLeft s 4) t = .next u ∧
      Emitted (data4 v)
        { s.pins with
          d0 := v.getLsbD 0, d1 := v.getLsbD 1, d2 := v.getLsbD 2, d3 := v.getLsbD 3 }
        s.byte s u) ∧
  (∀ (v : Byte) (s : State), s.cfg.dl = true → CanStart (.driveData8 v) s →
    ∃ t u, exec (.driveData8 v) s = .next t ∧ run (stepsLeft s 8) t = .next u ∧
      Emitted (data8 v)
        { s.pins with
          d0 := v.getLsbD 0, d1 := v.getLsbD 1, d2 := v.getLsbD 2, d3 := v.getLsbD 3
          d4 := v.getLsbD 4, d5 := v.getLsbD 5, d6 := v.getLsbD 6, d7 := v.getLsbD 7 }
        s.byte s u)

/-- SELECT rs (R154): RS is driven to `rs`, RW to RW_WRITE, and no other line. That these are two writes, RS first, is the spec's own choice (D6 to D8), taken over by the model (log entry 13); that the row runs by itself is log entry 16. -/
def Obligations.SelectCompletes : Prop :=
  ∀ (rs : Level) (s : State), CanStart (.select rs) s →
    ∃ t u, exec (.select rs) s = .next t ∧ run (stepsLeft s 2) t = .next u ∧
      Emitted [.setPin .rs rs, .setPin .rw s.par.rwWrite]
        { s.pins with rs := rs, rw := s.par.rwWrite } s.byte s u

/-- PULSE (R159): Enable up, the hold, Enable down; it always leaves Enable at 0 and writes nothing else. That the row runs by itself is the model's choice (log entry 16). -/
def Obligations.PulseCompletes : Prop :=
  ∀ s : State, CanStart .pulse s →
    ∃ t u, exec .pulse s = .next t ∧ run (stepsLeft s 3) t = .next u ∧
      Emitted [.setPin .e true, .delay s.par.tPulse, .setPin .e false]
        { s.pins with e := false } s.byte s u

/-- DELAY n (R153): one call of `delay(n)`, at least `n` units, no pin. That the row runs by itself is the model's choice (log entry 16). -/
def Obligations.DelayCompletes : Prop :=
  ∀ (n : Nat) (s : State), CanStart (.delay n) s →
    ∃ t u, exec (.delay n) s = .next t ∧ run (stepsLeft s 1) t = .next u ∧
      Emitted [.delay n] s.pins s.byte s u

/-- The forms whose rule requires the other bus width (R113, R155, R156, R158) stop by name. The rules state the requirement and not what happens otherwise: that the form stops is the model's (log entry 15).
The test reads CFG.DL before LIFE and SEQ, so the form stops too where no instance exists, by the CFG that stands there, and inside another operation: the model's choice (log entry 15). -/
def Obligations.WrongBusWidthStops : Prop :=
  ∀ s : State,
    (s.cfg.dl = true →
      exec .force4A s = .refused .wrongBusWidth ∧ exec .force4B s = .refused .wrongBusWidth ∧
      (∀ v, exec (.raw4Send v) s = .refused .wrongBusWidth) ∧
      (∀ rs v, exec (.frame4 rs v) s = .refused .wrongBusWidth) ∧
      (∀ v, exec (.driveData4 v) s = .refused .wrongBusWidth)) ∧
    (s.cfg.dl = false →
      (∀ rs v, exec (.frame8 rs v) s = .refused .wrongBusWidth) ∧
      (∀ v, exec (.driveData8 v) s = .refused .wrongBusWidth))

/-- With SEQ = IDLE in a lifecycle that does not admit the instruction, nothing happens: no event, no state change. R203 says so of the requests and of INIT; which lifecycles admit a wire word, a frame or a micro-operation, and that it does nothing in the others, is the model's choice (log entry 16).
The two hypotheses on the bus width leave out the forms that stop by it in every lifecycle (WrongBusWidthStops; log entry 15). -/
def Obligations.NotAdmittedChangesNothing : Prop :=
  ∀ (i : Instr) (s : State), s.seq = .idle → Instr.admittedIn i s.life = false →
    (needsWidth4 i = true → s.cfg.dl = false) → (needsWidth8 i = true → s.cfg.dl = true) →
    exec i s = .next s

/-- While another operation is in progress, an instruction has no meaning (92_eei_decisions.md D16, U5). That the meaning stops by name is log entry 15.
The two hypotheses on the bus width leave out the forms that stop by it first (WrongBusWidthStops; log entry 15). -/
def Obligations.InterleavedOperationIsRefused : Prop :=
  ∀ (i j : Instr) (k : Nat) (s : State), j ≠ i → s.seq = .run j k →
    (needsWidth4 i = true → s.cfg.dl = false) → (needsWidth8 i = true → s.cfg.dl = true) →
    exec i s = .refused .operationInProgress

/-! ## Frames and what an instruction cannot see -/

/-- What every instruction but CONSTRUCT leaves unchanged in one step, and what the step adds to the trace: at most one event, whose effect on PIN is all that happens to PIN.
The parameters, the recorded error and the host's side are fields of the model (log entries 2, 17, 22). -/
def Obligations.OneStepFrame : Prop :=
  ∀ (i : Instr) (s t : State), (∀ d n f, i ≠ .construct d n f) → exec i s = .next t →
    t.par = s.par ∧ t.cfg = s.cfg ∧ t.pinmap = s.pinmap ∧ t.error = s.error ∧ t.port = s.port ∧
    t.pinsArg = s.pinsArg ∧ (∀ k, t.str.read k = s.str.read k) ∧
    (t.life = s.life ∨ (i = .init ∧ t.life = .ready)) ∧
    (t.strpos = s.strpos ∨ i = .putString) ∧
    ∃ es : List Event, es.length ≤ 1 ∧ t.trace = s.trace ++ es ∧
      t.pins = es.foldl (fun p e => e.drive p) s.pins

/-- A step takes at least the time its event asks for, whatever the free values of Config are (R14, R29, R63).
That the time beyond it is a free value is log entry 6. -/
def Obligations.DelaysAreLowerBounds : Prop :=
  ∀ (i : Instr) (s t : State), (∀ d n f, i ≠ .construct d n f) → exec i s = .next t →
    ∃ es : List Event, t.trace = s.trace ++ es ∧
      s.time + ((es.map Event.leastTime).sum : Nat) ≤ t.time

/-- R20, R169: what a step of an instruction emits, and where it goes, is settled by the parameters, CFG, SEQ, LIFE, BYTE, STRPOS and the string operand alone: not by the pin levels, the pin map, the trace, the time or anything the host presents. -/
def Obligations.EventsIgnorePinsAndHistory : Prop :=
  ∀ (i : Instr) (s s' t : State), (∀ d n f, i ≠ .construct d n f) →
    s'.par = s.par → s'.cfg = s.cfg → s'.seq = s.seq → s'.life = s.life → s'.byte = s.byte →
    s'.strpos = s.strpos → s'.str = s.str → exec i s = .next t →
    ∃ (t' : State) (es : List Event), exec i s' = .next t' ∧
      t.trace = s.trace ++ es ∧ t'.trace = s'.trace ++ es ∧
      t'.seq = t.seq ∧ t'.life = t.life ∧ t'.byte = t.byte ∧ t'.strpos = t.strpos

/-- R35: no step writes CFG or PINMAP but one that begins a construction, and that one copies the construction's arguments; no step at all writes the parameters.
R32 calls the parameters constants; that they are a field of State which no step writes is the model's choice (log entry 2). That a construction may come in every lifecycle is log entry 9, the port log entry 22. -/
def Obligations.ConfigurationIsImmutable : Prop :=
  ∀ s t : State, step s = .next t →
    t.par = s.par ∧
    ((t.cfg = s.cfg ∧ t.pinmap = s.pinmap) ∨
      (s.seq = .idle ∧ t.seq = .run .init 0 ∧ t.life = .initialising ∧ t.trace = [] ∧
        ∃ w pins rest, s.port = .construct w pins :: rest ∧ t.pinmap = pins ∧ t.cfg.word = w))

/-- Distinct signals reach distinct lines (R22): a pin map with distinct handles gives no handle twice; and every line a transmission drives has a handle, entry `i` of the Data list for `D(i)`. -/
def Obligations.EventsReachTheirOwnLines : Prop :=
  ∀ (m : PinMap) (dl : Bool), m.data.length = (if dl then 8 else 4) → m.distinct = true →
    (∀ (a b : Signal) (h : Handle), m.handle a = some h → m.handle b = some h → a = b) ∧
    (∀ (p : Params) (rs : Level) (b : Byte), ∀ e ∈ txEvents p dl rs b,
      (Event.call m e).isSome = true) ∧
    (∀ (i : Fin 8) (h : Handle) (v : Level), m.data[i.val]? = some h →
      Event.call m (.setPin (.d i) v) = some (.setPin h v))

/-! ## The observation levels (R161, R162) -/

/-- R161: a frame latches exactly its value, with the RS and RW levels that stand while it is driven. -/
def Obligations.FrameYieldsItsLatch : Prop :=
  ∀ (q : Pins) (p : Params), q.e = false →
    (∀ v : Byte, levelW 8 q (data8 v ++ strobe p) = [.latch q.rs q.rw 8 v]) ∧
    (∀ v : Nibble, levelW 4 q (data4 v ++ strobe p) = [.latch q.rs q.rw 4 (v.setWidth 8)])

/-- R160, R162: every list of transmissions parses at Level B, without remainder, to itself, whatever the pin levels before it, Enable being 0. -/
def Obligations.TransmissionsParseAtLevelB : Prop :=
  ∀ (p : Params) (dl : Bool) (l : List (Level × Byte)) (q : Pins), q.e = false →
    levelB (levelW (if dl then 8 else 4) q (txsEvents p dl l)) =
      some (l.map (fun x => BItem.tx x.1 x.2))

/-- R111: Level B of INIT, in every configuration: the wait, on a 4-bit bus the two raw words, the function-set byte of the table, 0x01, 0x02, 0x0C, 0x06. -/
def Obligations.InitAtLevelB : Prop :=
  ∀ (s : State) (q : Pins), q.e = false →
    levelB (levelW s.width q (eventsOf (sequenceOf .init s))) =
      some (.wait s.par.tPowerOn ::
        ((if s.cfg.dl then [] else [BItem.tx false 0x33#8, .tx false 0x32#8]) ++
          [.tx false (fsTable s.cfg.dl s.cfg.n s.cfg.f), .tx false 0x01#8, .tx false 0x02#8,
           .tx false 0x0C#8, .tx false 0x06#8]))

/-- R83: the command bytes an operation emits are in the closed set, and only PUT_CHAR and PUT_STRING emit data bytes. -/
def Obligations.CommandBytesAreInTheClosedSet : Prop :=
  ∀ (i : Instr) (s : State) (q : Pins), (i.isPublic = true ∨ i = .init) → q.e = false →
    ∃ l, levelB (levelW s.width q (eventsOf (sequenceOf i s))) = some l ∧
      ∀ (rs : Level) (b : Byte), BItem.tx rs b ∈ l →
        if rs then (∃ c, i = .putChar c) ∨ i = .putString
        else b ∈ [0x01#8, 0x02#8, 0x06#8, 0x08#8, 0x0C#8, 0x0E#8, 0x0F#8, 0x20#8, 0x24#8, 0x28#8,
          0x2C#8, 0x30#8, 0x34#8, 0x38#8, 0x3C#8, 0x33#8, 0x32#8]

/-- R167, R250, R251: the events of a transmission and of INIT, the pin writes, the writes of E, and the least time requested. The counts rest on the spec's own choices: RW written in every transmission, RS and RW once in it, no delay but the named ones, and the inside of the raw path (D7 to D10; log entry 13). -/
def Obligations.EventCountsAndLeastTimes : Prop :=
  ∀ (s : State) (rs : Level) (b : Byte),
    (eventsOf (sequenceOf (.transmit rs b) s)).length = (if s.cfg.dl then 14 else 17) ∧
    ((eventsOf (sequenceOf (.transmit rs b) s)).filter (fun e =>
      match e with | .setPin _ _ => true | .delay _ => false)).length =
        (if s.cfg.dl then 12 else 14) ∧
    ((eventsOf (sequenceOf (.transmit rs b) s)).filter (fun e =>
      match e with | .setPin .e _ => true | _ => false)).length = (if s.cfg.dl then 2 else 4) ∧
    ((eventsOf (sequenceOf (.transmit rs b) s)).map Event.leastTime).sum = txTime s.par s.cfg.dl ∧
    (eventsOf (sequenceOf .init s)).length = (if s.cfg.dl then 71 else 120) ∧
    ((eventsOf (sequenceOf .init s)).map Event.leastTime).sum =
      s.par.tPowerOn + (if s.cfg.dl then 5 else 7) * txTime s.par s.cfg.dl

/-! ## Whole runs -/

/-- R63: what the host's calls emit: stepped through a list of calls presented to an idle, READY block, the block emits the transmissions of each call in the calls' order and nothing else, and is idle and READY again with nothing waiting. The order of the pin writes inside a transmission is the spec's own choice (D6 to D9; log entry 13).
The host's side as fields of State is the model's choice (log entry 22). -/
def Obligations.HostCallsAreEmittedInOrder : Prop :=
  ∀ (calls : List HostCall) (s : State), s.seq = .idle → s.life = .ready →
    s.port = calls.map HostCall.presented → (∀ c ∈ calls, c.wf) →
    ∃ u, run ((calls.map (HostCall.steps s.par s.cfg.dl)).sum) s = .next u ∧
      u.trace = s.trace ++ txsEvents s.par s.cfg.dl (calls.flatMap HostCall.txs) ∧
      u.seq = .idle ∧ u.life = .ready ∧ u.port = [] ∧
      u.par = s.par ∧ u.cfg = s.cfg ∧ u.pinmap = s.pinmap

/-- R136: `turn_on off`, `turn_off`, `turn_on blink-on`, presented to an idle, READY block in any state, emit 0x0C, 0x08, 0x0F in order. The number of steps this takes rests on the spec's own choice of the events of a transmission (D7 to D9; log entry 13).
The host's side as fields of State is the model's choice (log entry 22). -/
def Obligations.CursorCommandsAreStateless : Prop :=
  ∀ s : State, s.seq = .idle → s.life = .ready →
    s.port = [.request 0x100#12 [], .request 0x200#12 [], .request 0x101#12 []] →
    ∃ u es, run (3 * (1 + txCount s.cfg.dl)) s = .next u ∧ u.seq = .idle ∧
      u.trace = s.trace ++ es ∧
      ∀ q : Pins, q.e = false → levelB (levelW s.width q es) =
        some [.tx false 0x0C#8, .tx false 0x08#8, .tx false 0x0F#8]

/-! ## The invariant -/

/-- Every step keeps the invariant: SEQ is a position of an operation LIFE admits, an instance has its handles, no line changes while Enable is high, every strobe is held and every transmission settled, RW is always write, only existing lines are driven, PIN[E] is what was last driven.
That a construction may come in every lifecycle is log entry 9; that RS is the first write after the settle is the spec's own choice (D6; log entry 13). -/
def Obligations.StepKeepsInv : Prop :=
  ∀ s t : State, BlockInv s → step s = .next t → BlockInv t

/-- The invariant holds right after reset and before construction. -/
def Obligations.ResetHasInv : Prop := BlockInv State.reset ∧ BlockInv State.unbuilt

/-- Under every host that presents well-formed operands, every state reached from reset or from before construction has the invariant.
The host's side as fields of State is the model's choice (log entry 22). -/
def Obligations.ReachableStatesHaveInv : Prop :=
  ∀ (port : List Presented) (n : Nat) (u : State), (∀ x ∈ port, x.wf) →
    (run n { State.reset with port := port } = .next u ∨
      run n { State.unbuilt with port := port } = .next u) → BlockInv u

/-- R163, R231, R232, R253: in every state with the invariant, no RS, RW or Data line was written while Enable was high and a delay of at least 5 stands immediately before every RS write; and when the block is idle every strobe was held for at least 1 and Enable is 0.
That RS is the first write after the settle is the spec's own choice (D6; log entry 13). -/
def Obligations.TracesKeepTheProtocol : Prop :=
  ∀ s : State, BlockInv s →
    quiet false s.trace = true ∧ settled 5 0 s.trace = true ∧
    (s.seq = .idle → strobesHeld 1 s.trace = true ∧ s.pins.e = false)
end

