-- ==== Sys2Proof/Laws/Memory.lean ====
section
/-! SUPPORT. The string operand space keeps its canonical form, and a read after a write gives what was written. -/

namespace Sys2Proof.Machine

/-- Every index a write leaves listed was listed before or is the one written. -/
theorem Memory.mem_write {m : Memory} {k : Nat} {b : Byte} {c : Host.Cell}
    (h : c ∈ Memory.write m k b) : c ∈ m ∨ c = (k, b) := by
  induction m with
  | nil => simpa [Memory.write] using h
  | cons x rest ih =>
    simp only [Memory.write] at h
    split at h
    · simp only [List.mem_cons] at h ⊢; tauto
    · split at h
      · simp only [List.mem_cons] at h ⊢; tauto
      · simp only [List.mem_cons] at h ⊢
        rcases h with h | h
        · exact .inl (.inl h)
        · rcases ih h with h | h <;> tauto

/-- A write keeps the canonical form. -/
theorem Memory.wf_write {m : Memory} (k : Nat) (b : Byte) (h : m.wf) : (Memory.write m k b).wf := by
  induction m with
  | nil => simp [Memory.write, Memory.wf]
  | cons x rest ih =>
    have hx : ∀ c ∈ rest, x.1 < c.1 := (List.pairwise_cons.1 h).1
    have hr : Memory.wf rest := (List.pairwise_cons.1 h).2
    simp only [Memory.write]
    split
    · rename_i hk
      refine List.pairwise_cons.2 ⟨fun c hc => ?_, h⟩
      rcases List.mem_cons.1 hc with rfl | hc
      · exact hk
      · exact Nat.lt_trans hk (hx c hc)
    · split
      · rename_i hk; exact List.pairwise_cons.2 ⟨fun c hc => hk ▸ hx c hc, hr⟩
      · rename_i h1 h2
        refine List.pairwise_cons.2 ⟨fun c hc => ?_, ih hr⟩
        rcases Memory.mem_write hc with hc | rfl
        · exact hx c hc
        · exact Nat.lt_of_le_of_ne (Nat.le_of_not_lt h1) (Ne.symm h2)

/-- A byte read after it is written is the byte written. -/
theorem Memory.read_write_same (m : Memory) (k : Nat) (b : Byte) :
    (Memory.write m k b).read k = some b := by
  induction m with
  | nil => simp [Memory.write, Memory.read]
  | cons x rest ih =>
    simp only [Memory.write]
    split
    · simp [Memory.read]
    · split
      · simp [Memory.read]
      · rename_i _ h2; rw [Memory.read, if_neg (Ne.symm h2)]; exact ih

/-- A write leaves every other index as it was. -/
theorem Memory.read_write_other (m : Memory) (k j : Nat) (b : Byte) (h : j ≠ k) :
    (Memory.write m k b).read j = m.read j := by
  induction m with
  | nil => simp [Memory.write, Memory.read, Ne.symm h]
  | cons x rest ih =>
    simp only [Memory.write]
    split
    · rw [Memory.read, if_neg (Ne.symm h)]
    · split
      · rename_i _ h2; rw [Memory.read, Memory.read, if_neg (Ne.symm h), if_neg (h2 ▸ Ne.symm h)]
      · rw [Memory.read, Memory.read, ih]

/-- Bytes laid out from an index are in canonical form. -/
theorem Memory.wf_ofBytesFrom (k : Nat) (bs : List Byte) : (Memory.ofBytesFrom k bs).wf := by
  have low : ∀ (bs : List Byte) (j : Nat), ∀ c ∈ Memory.ofBytesFrom j bs, j ≤ c.1 := by
    intro bs
    induction bs with
    | nil => intro j c hc; simp [Memory.ofBytesFrom] at hc
    | cons b bs ih =>
      intro j c hc
      rcases List.mem_cons.1 hc with rfl | hc
      · exact Nat.le_refl _
      · exact Nat.le_of_succ_le (ih (j + 1) c hc)
  induction bs generalizing k with
  | nil => exact List.Pairwise.nil
  | cons b bs ih => exact List.pairwise_cons.2 ⟨fun c hc => low bs (k + 1) c hc, ih (k + 1)⟩

/-- A string operand is in canonical form. -/
theorem Memory.wf_ofBytes (bs : List Byte) : (Memory.ofBytes bs).wf := Memory.wf_ofBytesFrom 0 bs

theorem Memory.read_ofBytesFrom (bs : List Byte) (j k : Nat) :
    (Memory.ofBytesFrom j bs).read (j + k) = bs[k]? := by
  induction bs generalizing j k with
  | nil => rfl
  | cons b bs ih =>
    cases k with
    | zero => simp [Memory.ofBytesFrom, Memory.read]
    | succ k =>
      have h := ih (j + 1) k
      rw [Nat.add_assoc, Nat.add_comm 1 k] at h
      simpa [Memory.ofBytesFrom, Memory.read] using h

/-- Index `k` of a string operand holds its byte number `k` (R55). -/
@[simp] theorem Memory.read_ofBytes (bs : List Byte) (k : Nat) :
    (Memory.ofBytes bs).read k = bs[k]? := by
  have h := Memory.read_ofBytesFrom bs 0 k
  rwa [Nat.zero_add] at h

theorem Memory.sentinelFrom_of_bytes (m : Memory) (bs : List Byte) (k fuel : Nat)
    (hb : ∀ j, (h : j < bs.length) → m.read (k + j) = some bs[j])
    (hn : ∀ b ∈ bs, b ≠ Config.sentinel) (h0 : m.read (k + bs.length) = some Config.sentinel)
    (hf : bs.length < fuel) : m.sentinelFrom k fuel = some (k + bs.length) := by
  induction bs generalizing k fuel with
  | nil =>
    obtain ⟨fuel, rfl⟩ : ∃ f, fuel = f + 1 := ⟨fuel - 1, by simp at hf; omega⟩
    simp only [List.length_nil, Nat.add_zero] at h0
    simp [Memory.sentinelFrom, h0]
  | cons b bs ih =>
    obtain ⟨fuel, rfl⟩ : ∃ f, fuel = f + 1 := ⟨fuel - 1, by simp at hf; omega⟩
    have h1 : m.read k = some b := hb 0 (by simp)
    have h2 := ih (k + 1) fuel
      (fun j hj => by
        have := hb (j + 1) (by simpa using hj)
        rw [Nat.add_assoc, Nat.add_comm 1 j]; exact this)
      (fun c hc => hn c (List.mem_cons_of_mem _ hc))
      (by rw [Nat.add_assoc, Nat.add_comm 1]; simpa using h0)
      (by simpa using hf)
    simp only [Memory.sentinelFrom, h1, if_neg (hn b List.mem_cons_self), h2, List.length_cons]
    congr 1; omega

theorem Memory.length_ofBytesFrom (k : Nat) (bs : List Byte) :
    (Memory.ofBytesFrom k bs).length = bs.length := by
  induction bs generalizing k with
  | nil => rfl
  | cons b bs ih => simp [Memory.ofBytesFrom, ih]

/-- The length of a string is the number of bytes before the first sentinel; what stands after it plays no part (R181). -/
theorem Memory.stringLength_ofBytes (bs junk : List Byte) (hn : ∀ b ∈ bs, b ≠ Config.sentinel) :
    (Memory.ofBytes (bs ++ Config.sentinel :: junk)).stringLength = some bs.length := by
  have h := Memory.sentinelFrom_of_bytes (Memory.ofBytes (bs ++ Config.sentinel :: junk)) bs 0
    ((Memory.ofBytes (bs ++ Config.sentinel :: junk)).length + 1)
    (fun j hj => by rw [Nat.zero_add, Memory.read_ofBytes, List.getElem?_append_left hj]; simp [hj])
    hn
    (by rw [Nat.zero_add, Memory.read_ofBytes, List.getElem?_append_right (Nat.le_refl _)]; simp)
    (by rw [Memory.ofBytes, Memory.length_ofBytesFrom]; simp)
  simpa [Memory.stringLength] using h

end Sys2Proof.Machine
end

