-- ==== Sys2Proof/Laws/PerInstr.lean ====
section
/-! SUPPORT. The family RoundTrip, one lemma per instruction: decoding the word of a well-formed instruction in its format gives the instruction back. -/

namespace Sys2Proof

/-- A field that is the whole of a smaller number is that number. -/
theorem field_zero_of_lt {w n : Nat} (h : w < 2 ^ n) : field w 0 n = w := by
  simp [field, Nat.mod_eq_of_lt h]

/-- A byte placed under higher bits is read back (R88, R82). -/
theorem field_byte (k : Nat) (b : Byte) : field (256 * k + b.toNat) 0 8 = b.toNat := by
  have := b.isLt
  simp only [field]; omega

theorem ofNat_toNat_byte (b : Byte) : BitVec.ofNat 8 b.toNat = b := by simp

theorem ofNat_toNat_nibble (v : Nibble) : BitVec.ofNat 4 v.toNat = v := by simp

end Sys2Proof

namespace Sys2Proof.Laws.RoundTrip

/-- Decoding the encoded instruction gives it back. -/
def Statement (i : Instr) : Prop := i.wf = true → decode i.format (encode i) = .ok i

theorem construct (d n f : Bool) : Statement (.construct d n f) := by
  intro _; cases d <;> cases n <;> cases f <;> rfl

theorem init : Statement .init := fun _ => rfl

theorem turnOn (cs : CursorState) : Statement (.turnOn cs) := by intro _; cases cs <;> rfl

theorem turnOff : Statement .turnOff := fun _ => rfl

theorem clear : Statement .clear := fun _ => rfl

theorem putChar (b : Byte) : Statement (.putChar b) := by
  intro _
  have hb := b.isLt
  have h1 : field (0x400 + b.toNat) 8 4 = 4 := by simp only [field]; omega
  have h2 : field (0x400 + b.toNat) 0 8 = b.toNat := field_byte 4 b
  have h3 : 0x400 + b.toNat < 4096 := by omega
  simp [decode, decodeBits, Instr.format, Format.width, encode, decodeRequest, h1, h2, h3]

theorem putString : Statement .putString := fun _ => rfl

theorem clearDisplay : Statement .clearDisplay := fun _ => rfl

theorem returnHome : Statement .returnHome := fun _ => rfl

theorem entryModeRight : Statement .entryModeRight := fun _ => rfl

theorem displayOff : Statement .displayOff := fun _ => rfl

theorem displayOnCursorOff : Statement .displayOnCursorOff := fun _ => rfl

theorem displayOnCursorSteady : Statement .displayOnCursorSteady := fun _ => rfl

theorem displayOnCursorBlink : Statement .displayOnCursorBlink := fun _ => rfl

theorem functionSet (d n f : Bool) : Statement (.functionSet d n f) := by
  intro _; cases d <;> cases n <;> cases f <;> rfl

theorem force4A : Statement .force4A := fun _ => rfl

theorem force4B : Statement .force4B := fun _ => rfl

theorem dataWrite (b : Byte) : Statement (.dataWrite b) := by
  intro _
  have hb := b.isLt
  have h1 : bitOf (0x100 + b.toNat) 8 = true := by simp only [bitOf]; simp; omega
  have h2 : field (0x100 + b.toNat) 0 8 = b.toNat := field_byte 1 b
  have h3 : 0x100 + b.toNat < 512 := by omega
  simp [decode, decodeBits, Instr.format, Format.width, encode, decodeWire, h1, h2, h3]

theorem frame4 (rs : Level) (v : Nibble) : Statement (.frame4 rs v) := by
  intro _; revert rs v; decide

theorem frame8 (rs : Level) (v : Byte) : Statement (.frame8 rs v) := by
  intro _
  have hb := v.isLt
  have h2 : field (512 * bitNat rs + v.toNat) 0 8 = v.toNat := by
    cases rs <;> simp only [field, bitNat] <;> simp <;> omega
  have h1 : bitOf (512 * bitNat rs + v.toNat) 8 = false := by
    cases rs <;> simp only [bitOf, bitNat] <;> simp <;> omega
  have h0 : bitOf (512 * bitNat rs + v.toNat) 9 = rs := by
    cases rs <;> simp only [bitOf, bitNat] <;> simp <;> omega
  have h3 : 512 * bitNat rs + v.toNat < 1024 := by
    cases rs <;> simp only [bitNat] <;> simp <;> omega
  simp [decode, decodeBits, Instr.format, Format.width, encode, decodeLatch8, h0, h1, h2, h3]

theorem transmit (rs : Level) (b : Byte) : Statement (.transmit rs b) := by
  intro _
  have hb := b.isLt
  have h2 : field (256 * bitNat rs + b.toNat) 0 8 = b.toNat := field_byte _ b
  have h0 : bitOf (256 * bitNat rs + b.toNat) 8 = rs := by
    cases rs <;> simp only [bitOf, bitNat] <;> simp <;> omega
  have h3 : 256 * bitNat rs + b.toNat < 512 := by
    cases rs <;> simp only [bitNat] <;> simp <;> omega
  simp [decode, decodeBits, Instr.format, Format.width, encode, h0, h2, h3]

/-- The images whose RS bit is 0. -/
theorem fixedRs_false (b : Byte) (i : Byte → Instr) :
    decodeFixedRs b.toNat false i = .ok (i b) := by
  have hb := b.isLt
  have h1 : bitOf b.toNat 8 = false := by simp only [bitOf]; simp; omega
  have h2 : field b.toNat 0 8 = b.toNat := field_zero_of_lt hb
  simp [decodeFixedRs, h1, h2]

theorem sendCommand (b : Byte) : Statement (.sendCommand b) := by
  intro _
  have h3 : b.toNat < 512 := Nat.lt_trans b.isLt (by decide)
  simp [decode, decodeBits, Instr.format, Format.width, encode, h3, fixedRs_false]

theorem sendData (b : Byte) : Statement (.sendData b) := by
  intro _
  have hb := b.isLt
  have h1 : bitOf (0x100 + b.toNat) 8 = true := by simp only [bitOf]; simp; omega
  have h2 : field (0x100 + b.toNat) 0 8 = b.toNat := field_byte 1 b
  have h3 : 0x100 + b.toNat < 512 := by omega
  simp [decode, decodeBits, Instr.format, Format.width, encode, decodeFixedRs, h1, h2, h3]

theorem raw4Send (v : Byte) : Statement (.raw4Send v) := by
  intro _
  have h3 : v.toNat < 512 := Nat.lt_trans v.isLt (by decide)
  simp [decode, decodeBits, Instr.format, Format.width, encode, h3, fixedRs_false]

theorem select (rs : Level) : Statement (.select rs) := by intro _; cases rs <;> rfl

theorem driveData4 (v : Nibble) : Statement (.driveData4 v) := by
  intro _
  have hv : v.toNat < 16 := v.isLt
  simp [decode, decodeBits, Instr.format, Format.width, encode, hv]

theorem driveData8 (v : Byte) : Statement (.driveData8 v) := by
  intro _
  have hv : v.toNat < 256 := v.isLt
  simp [decode, decodeBits, Instr.format, Format.width, encode, hv]

theorem frame (v : Byte) : Statement (.frame v) := by
  intro _
  have hv : v.toNat < 256 := v.isLt
  simp [decode, decodeBits, Instr.format, Format.width, encode, hv]

theorem pulse : Statement .pulse := fun _ => rfl

theorem delay (n : Nat) : Statement (.delay n) := by
  intro h
  have hn : n < 64 := by simpa [Instr.wf, delayFits] using h
  simp [decode, decodeBits, Instr.format, Format.width, encode, hn]

end Sys2Proof.Laws.RoundTrip
end

