-- ==== Sys2Proof/Laws/State.lean ====
section
/-! SUPPORT. The small lemmas of the state's updates: one per field of `emit`, `emitAll`, `takeConfigError` and `beginInstance`, and the read-after-write laws of the output latch. -/

namespace Sys2Proof.Machine

@[simp] theorem emit_par (m : Micro) (s : State) : (emit m s).par = s.par := rfl
@[simp] theorem emit_cfg (m : Micro) (s : State) : (emit m s).cfg = s.cfg := rfl
@[simp] theorem emit_pinmap (m : Micro) (s : State) : (emit m s).pinmap = s.pinmap := rfl
@[simp] theorem emit_pins (m : Micro) (s : State) : (emit m s).pins = m.ev.drive s.pins := rfl
@[simp] theorem emit_seq (m : Micro) (s : State) : (emit m s).seq = s.seq := rfl
@[simp] theorem emit_byte (m : Micro) (s : State) : (emit m s).byte = m.byte.getD s.byte := rfl
@[simp] theorem emit_strpos (m : Micro) (s : State) : (emit m s).strpos = s.strpos := rfl
@[simp] theorem emit_life (m : Micro) (s : State) : (emit m s).life = s.life := rfl
@[simp] theorem emit_error (m : Micro) (s : State) : (emit m s).error = s.error := rfl
@[simp] theorem emit_trace (m : Micro) (s : State) : (emit m s).trace = s.trace ++ [m.ev] := rfl
@[simp] theorem emit_time (m : Micro) (s : State) : (emit m s).time = s.time + Config.elapsed m.ev.leastTime s.draws := rfl
@[simp] theorem emit_draws (m : Micro) (s : State) : (emit m s).draws = s.draws + 1 := rfl
@[simp] theorem emit_port (m : Micro) (s : State) : (emit m s).port = s.port := rfl
@[simp] theorem emit_pinsArg (m : Micro) (s : State) : (emit m s).pinsArg = s.pinsArg := rfl
@[simp] theorem emit_str (m : Micro) (s : State) : (emit m s).str = s.str := rfl

/-- `emit` does not read SEQ. -/
theorem emit_withSeq (m : Micro) (q : Seq) (s : State) :
    emit m { s with seq := q } = { emit m s with seq := q } := rfl

@[simp] theorem emitAll_nil (s : State) : emitAll [] s = s := rfl

@[simp] theorem emitAll_cons (m : Micro) (ms : List Micro) (s : State) :
    emitAll (m :: ms) s = emitAll ms (emit m s) := rfl

theorem emitAll_append (ms ns : List Micro) (s : State) :
    emitAll (ms ++ ns) s = emitAll ns (emitAll ms s) := by
  simp [emitAll, List.foldl_append]

theorem emitAll_withSeq (ms : List Micro) (q : Seq) (s : State) :
    emitAll ms { s with seq := q } = { emitAll ms s with seq := q } := by
  induction ms generalizing s with
  | nil => rfl
  | cons m ms ih => rw [emitAll_cons, emitAll_cons, emit_withSeq, ih]

@[simp] theorem emitAll_par (ms : List Micro) (s : State) : (emitAll ms s).par = s.par := by
  induction ms generalizing s with
  | nil => rfl
  | cons m ms ih => rw [emitAll_cons, ih, emit_par]

@[simp] theorem emitAll_cfg (ms : List Micro) (s : State) : (emitAll ms s).cfg = s.cfg := by
  induction ms generalizing s with
  | nil => rfl
  | cons m ms ih => rw [emitAll_cons, ih, emit_cfg]

@[simp] theorem emitAll_pinmap (ms : List Micro) (s : State) : (emitAll ms s).pinmap = s.pinmap := by
  induction ms generalizing s with
  | nil => rfl
  | cons m ms ih => rw [emitAll_cons, ih, emit_pinmap]

@[simp] theorem emitAll_seq (ms : List Micro) (s : State) : (emitAll ms s).seq = s.seq := by
  induction ms generalizing s with
  | nil => rfl
  | cons m ms ih => rw [emitAll_cons, ih, emit_seq]

@[simp] theorem emitAll_strpos (ms : List Micro) (s : State) : (emitAll ms s).strpos = s.strpos := by
  induction ms generalizing s with
  | nil => rfl
  | cons m ms ih => rw [emitAll_cons, ih, emit_strpos]

@[simp] theorem emitAll_life (ms : List Micro) (s : State) : (emitAll ms s).life = s.life := by
  induction ms generalizing s with
  | nil => rfl
  | cons m ms ih => rw [emitAll_cons, ih, emit_life]

@[simp] theorem emitAll_error (ms : List Micro) (s : State) : (emitAll ms s).error = s.error := by
  induction ms generalizing s with
  | nil => rfl
  | cons m ms ih => rw [emitAll_cons, ih, emit_error]

@[simp] theorem emitAll_port (ms : List Micro) (s : State) : (emitAll ms s).port = s.port := by
  induction ms generalizing s with
  | nil => rfl
  | cons m ms ih => rw [emitAll_cons, ih, emit_port]

@[simp] theorem emitAll_pinsArg (ms : List Micro) (s : State) : (emitAll ms s).pinsArg = s.pinsArg := by
  induction ms generalizing s with
  | nil => rfl
  | cons m ms ih => rw [emitAll_cons, ih, emit_pinsArg]

@[simp] theorem emitAll_str (ms : List Micro) (s : State) : (emitAll ms s).str = s.str := by
  induction ms generalizing s with
  | nil => rfl
  | cons m ms ih => rw [emitAll_cons, ih, emit_str]

@[simp] theorem emitAll_trace (ms : List Micro) (s : State) :
    (emitAll ms s).trace = s.trace ++ eventsOf ms := by
  induction ms generalizing s with
  | nil => simp [eventsOf]
  | cons m ms ih => rw [emitAll_cons, ih]; simp [eventsOf]

@[simp] theorem emitAll_draws (ms : List Micro) (s : State) :
    (emitAll ms s).draws = s.draws + ms.length := by
  induction ms generalizing s with
  | nil => rfl
  | cons m ms ih => rw [emitAll_cons, ih]; simp; omega

/-- What a list of events does to the pin levels, in order (R23). -/
theorem emitAll_pins (ms : List Micro) (s : State) :
    (emitAll ms s).pins = (eventsOf ms).foldl (fun p e => e.drive p) s.pins := by
  induction ms generalizing s with
  | nil => rfl
  | cons m ms ih => rw [emitAll_cons, ih]; rfl

/-- BYTE after a list of events: the last byte a transmission latched (R25). -/
theorem emitAll_byte (ms : List Micro) (s : State) :
    (emitAll ms s).byte = ms.foldl (fun b m => m.byte.getD b) s.byte := by
  induction ms generalizing s with
  | nil => rfl
  | cons m ms ih => rw [emitAll_cons, ih]; rfl

/-! ## Elapsed time: a free value, bounded below only (R29, R253) -/

/-- An event takes at least the time it asks for, whatever the free values are (R166). -/
theorem le_elapsed (n c : Nat) : (n : Rat) ≤ Config.elapsed n c := by
  unfold Config.elapsed
  have h : (0 : Rat) ≤ (Config.extraTimeNum c : Rat) / ((Config.extraTimeDen c : Rat) + 1) := by
    positivity
  linarith

/-- The least time a list of events takes: the sum of its delays (R250). -/
def leastTimeOf (es : List Event) : Nat := (es.map Event.leastTime).sum

/-- Emitting a list takes at least the sum of its delays (R63 (b), R250). -/
theorem le_emitAll_time (ms : List Micro) (s : State) :
    s.time + (leastTimeOf (eventsOf ms) : Rat) ≤ (emitAll ms s).time := by
  induction ms generalizing s with
  | nil => simp [eventsOf, leastTimeOf]
  | cons m ms ih =>
    have h1 := ih (emit m s)
    have h2 := le_elapsed m.ev.leastTime s.draws
    rw [emitAll_cons]
    simp only [eventsOf, leastTimeOf, List.map_cons, List.sum_cons, emit_time] at *
    push_cast at *
    linarith

/-! ## The exception and the new instance -/

@[simp] theorem takeConfigError_par (l w : Nat) (s : State) : (takeConfigError l w s).par = s.par := rfl
@[simp] theorem takeConfigError_cfg (l w : Nat) (s : State) : (takeConfigError l w s).cfg = s.cfg := rfl
@[simp] theorem takeConfigError_pinmap (l w : Nat) (s : State) : (takeConfigError l w s).pinmap = s.pinmap := rfl
@[simp] theorem takeConfigError_pins (l w : Nat) (s : State) : (takeConfigError l w s).pins = s.pins := rfl
@[simp] theorem takeConfigError_seq (l w : Nat) (s : State) : (takeConfigError l w s).seq = .idle := rfl
@[simp] theorem takeConfigError_byte (l w : Nat) (s : State) : (takeConfigError l w s).byte = s.byte := rfl
@[simp] theorem takeConfigError_strpos (l w : Nat) (s : State) : (takeConfigError l w s).strpos = s.strpos := rfl
@[simp] theorem takeConfigError_life (l w : Nat) (s : State) : (takeConfigError l w s).life = .failed := rfl
@[simp] theorem takeConfigError_error (l w : Nat) (s : State) : (takeConfigError l w s).error = some { code := Config.configErrorCode, dataLen := l, width := w } := rfl
@[simp] theorem takeConfigError_trace (l w : Nat) (s : State) : (takeConfigError l w s).trace = [] := rfl
@[simp] theorem takeConfigError_time (l w : Nat) (s : State) : (takeConfigError l w s).time = 0 := rfl
@[simp] theorem takeConfigError_draws (l w : Nat) (s : State) : (takeConfigError l w s).draws = s.draws := rfl
@[simp] theorem takeConfigError_port (l w : Nat) (s : State) : (takeConfigError l w s).port = s.port := rfl
@[simp] theorem takeConfigError_pinsArg (l w : Nat) (s : State) : (takeConfigError l w s).pinsArg = s.pinsArg := rfl
@[simp] theorem takeConfigError_str (l w : Nat) (s : State) : (takeConfigError l w s).str = s.str := rfl

@[simp] theorem beginInstance_par (d n f : Bool) (s : State) : (beginInstance d n f s).par = s.par := rfl
@[simp] theorem beginInstance_cfg (d n f : Bool) (s : State) : (beginInstance d n f s).cfg = { dl := d, n := n, f := f } := rfl
@[simp] theorem beginInstance_pinmap (d n f : Bool) (s : State) : (beginInstance d n f s).pinmap = s.pinsArg := rfl
@[simp] theorem beginInstance_pins (d n f : Bool) (s : State) : (beginInstance d n f s).pins = s.pins := rfl
@[simp] theorem beginInstance_seq (d n f : Bool) (s : State) : (beginInstance d n f s).seq = .run .init 0 := rfl
@[simp] theorem beginInstance_byte (d n f : Bool) (s : State) : (beginInstance d n f s).byte = s.byte := rfl
@[simp] theorem beginInstance_strpos (d n f : Bool) (s : State) : (beginInstance d n f s).strpos = s.strpos := rfl
@[simp] theorem beginInstance_life (d n f : Bool) (s : State) : (beginInstance d n f s).life = .initialising := rfl
@[simp] theorem beginInstance_error (d n f : Bool) (s : State) : (beginInstance d n f s).error = none := rfl
@[simp] theorem beginInstance_trace (d n f : Bool) (s : State) : (beginInstance d n f s).trace = [] := rfl
@[simp] theorem beginInstance_time (d n f : Bool) (s : State) : (beginInstance d n f s).time = 0 := rfl
@[simp] theorem beginInstance_draws (d n f : Bool) (s : State) : (beginInstance d n f s).draws = s.draws := rfl
@[simp] theorem beginInstance_port (d n f : Bool) (s : State) : (beginInstance d n f s).port = s.port := rfl
@[simp] theorem beginInstance_pinsArg (d n f : Bool) (s : State) : (beginInstance d n f s).pinsArg = s.pinsArg := rfl
@[simp] theorem beginInstance_str (d n f : Bool) (s : State) : (beginInstance d n f s).str = s.str := rfl

/-! ## The output latch -/

/-- A line reads as it was last driven. -/
@[simp] theorem Pins.get_set_same (p : Pins) (s : Signal) (v : Level) : (p.set s v).get s = v := by
  cases s with
  | d i => fin_cases i <;> rfl
  | _ => rfl

/-- Driving a line leaves every other line as it was. -/
theorem Pins.get_set_other (p : Pins) (s t : Signal) (v : Level) (h : t ≠ s) :
    (p.set s v).get t = p.get t := by
  cases s with
  | d i =>
    cases t with
    | d j => fin_cases i <;> fin_cases j <;> first | rfl | exact absurd rfl h
    | _ => fin_cases i <;> rfl
  | _ =>
    cases t with
    | d j => fin_cases j <;> rfl
    | _ => first | rfl | exact absurd rfl h

end Sys2Proof.Machine
end

