-- ==== Sys2Proof/Laws/Sequences.lean ====
section
/-! SUPPORT. The events of each sequence as the rules list them, and their lengths. -/

namespace Sys2Proof.Machine

/-- Shift before mask extracts the bit (R87, R168). -/
@[simp] theorem bit_eq_getLsbD (v : Byte) (i : Nat) : bit v i = v.getLsbD i := by
  have h : ((v >>> i) &&& 1#8 = 1#8) ↔ (v >>> i).getLsbD 0 = true := by
    generalize v >>> i = w; revert w; decide
  simp [bit, h]

/-- The bit test on a nibble. -/
@[simp] theorem bit_nibble_eq_getLsbD (v : Nibble) (i : Nat) : bit v i = v.getLsbD i := by
  have h : ((v >>> i) &&& 1#4 = 1#4) ↔ (v >>> i).getLsbD 0 = true := by
    generalize v >>> i = w; revert w; decide
  simp [bit, h]

/-- Bit `i` of the high nibble is bit `4 + i` of the byte (R86). -/
theorem hi_getLsbD : ∀ (b : Byte) (i : Fin 4), (hi b).getLsbD i.val = b.getLsbD (4 + i.val) := by
  decide

/-- Bit `i` of the low nibble is bit `i` of the byte (R86). -/
theorem lo_getLsbD : ∀ (b : Byte) (i : Fin 4), (lo b).getLsbD i.val = b.getLsbD i.val := by
  decide

/-- The Data writes of the high nibble are bits 4 to 7 of the byte (R56, R86). -/
theorem data4_hi (b : Byte) : data4 (hi b) =
    [.setPin (.d 0) (b.getLsbD 4), .setPin (.d 1) (b.getLsbD 5), .setPin (.d 2) (b.getLsbD 6),
     .setPin (.d 3) (b.getLsbD 7)] := by
  have h0 : (hi b).getLsbD 0 = b.getLsbD 4 := hi_getLsbD b 0
  have h1 : (hi b).getLsbD 1 = b.getLsbD 5 := hi_getLsbD b 1
  have h2 : (hi b).getLsbD 2 = b.getLsbD 6 := hi_getLsbD b 2
  have h3 : (hi b).getLsbD 3 = b.getLsbD 7 := hi_getLsbD b 3
  rw [data4, h0, h1, h2, h3]

/-- The Data writes of the low nibble are bits 0 to 3 of the byte (R56, R86). -/
theorem data4_lo (b : Byte) : data4 (lo b) = data4 b := by
  have h0 : (lo b).getLsbD 0 = b.getLsbD 0 := lo_getLsbD b 0
  have h1 : (lo b).getLsbD 1 = b.getLsbD 1 := lo_getLsbD b 1
  have h2 : (lo b).getLsbD 2 = b.getLsbD 2 := lo_getLsbD b 2
  have h3 : (lo b).getLsbD 3 = b.getLsbD 3 := lo_getLsbD b 3
  rw [data4, data4, h0, h1, h2, h3]

/-- The formula reproduces the source's table (R84). -/
theorem fs_eq_table (dl n f : Bool) : fs dl n f = fsTable dl n f := by
  cases dl <;> cases n <;> cases f <;> decide

theorem dc_eq_cursorByte (cs : CursorState) : dc cs = cursorByte cs := by cases cs <;> rfl

@[simp] theorem eventsOf_nil : eventsOf [] = [] := rfl

@[simp] theorem eventsOf_append (a b : List Micro) : eventsOf (a ++ b) = eventsOf a ++ eventsOf b := by
  simp [eventsOf]

@[simp] theorem length_eventsOf (a : List Micro) : (eventsOf a).length = a.length := by
  simp [eventsOf]

/-- DRIVE_DATA(8, v) (R158). -/
theorem events_driveData8 (v : Byte) : eventsOf (seqDriveData8 v) = data8 v := by
  simp [seqDriveData8, eventsOf, seqPin, data8]

/-- DRIVE_DATA(4, v) (R158). -/
theorem events_driveData4 (v : Nibble) : eventsOf (seqDriveData4 v) = data4 v := by
  simp [seqDriveData4, eventsOf, seqPin, data4]

/-- PULSE (R159). -/
theorem events_pulse (p : Params) : eventsOf (seqPulse p) = strobe p := rfl

/-- DELAY n (R153). -/
theorem events_delay (n : Nat) : eventsOf (seqDelay n) = [.delay n] := rfl

/-- SELECT rs (R154). -/
theorem events_select (p : Params) (rs : Level) :
    eventsOf (seqSelect p rs) = [.setPin .rs rs, .setPin .rw p.rwWrite] := rfl

/-- A transmission on an 8-bit bus (R152). -/
theorem events_transmit8 (p : Params) (rs : Level) (b : Byte) :
    eventsOf (seqTransmit8 p rs b) = tx8 p rs b := by
  simp [seqTransmit8, seqFrame8, events_driveData8, events_pulse, tx8, data8, strobe]
  rfl

/-- A transmission on a 4-bit bus (R152). -/
theorem events_transmit4 (p : Params) (rs : Level) (b : Byte) :
    eventsOf (seqTransmit4 p rs b) = tx4 p rs b := by
  rw [seqTransmit4, seqFrame4, seqFrame4, eventsOf_append, eventsOf_append, eventsOf_append,
    eventsOf_append, events_driveData4, events_driveData4, data4_hi, data4_lo, events_pulse]
  rfl

/-- A transmission at either width (R152, R160). -/
@[simp] theorem events_transmit (p : Params) (dl : Bool) (rs : Level) (b : Byte) :
    eventsOf (seqTransmit p dl rs b) = txEvents p dl rs b := by
  cases dl
  · simpa [seqTransmit, txEvents] using events_transmit4 p rs b
  · simpa [seqTransmit, txEvents] using events_transmit8 p rs b

/-- 14 or 17 events (R167). -/
@[simp] theorem length_txEvents (p : Params) (dl : Bool) (rs : Level) (b : Byte) :
    (txEvents p dl rs b).length = txCount dl := by
  cases dl <;> rfl

@[simp] theorem length_seqTransmit (p : Params) (dl : Bool) (rs : Level) (b : Byte) :
    (seqTransmit p dl rs b).length = txCount dl := by
  rw [← length_eventsOf, events_transmit, length_txEvents]

/-- RAW4_SEND emits the events of a 4-bit command transmission (R113). -/
theorem events_raw4Send (p : Params) (v : Byte) : eventsOf (seqRaw4Send p v) = tx4 p false v :=
  events_transmit4 p false v

/-- `Events(INIT)` (R111). -/
theorem events_init (p : Params) (c : Cfg) : eventsOf (seqInit p c) = initEvents p c := by
  obtain ⟨dl, n, f⟩ := c
  cases dl
  · simp only [seqInit, seqForce4, seqClear, seqTurnOn, seqSendCommand, fs_eq_table,
      dc_eq_cursorByte, eventsOf_append, events_delay, events_transmit, Bool.false_eq_true,
      if_false, events_raw4Send, Config.rsCommand]
    rfl
  · simp only [seqInit, seqForce4, seqClear, seqTurnOn, seqSendCommand, fs_eq_table,
      dc_eq_cursorByte, eventsOf_append, events_delay, events_transmit, if_true,
      Config.rsCommand]
    rfl

/-- The pins after a transmission (R164). -/
theorem foldl_tx_pins (p : Params) (dl : Bool) (rs : Level) (b : Byte) (q : Pins) :
    (txEvents p dl rs b).foldl (fun q e => e.drive q) q = txPins p dl rs b q := by
  cases dl <;> rfl

/-- BYTE after a transmission is the byte it sent (R25, R152). -/
theorem foldl_tx_byte (p : Params) (dl : Bool) (rs : Level) (b c : Byte) :
    (seqTransmit p dl rs b).foldl (fun b m => m.byte.getD b) c = b := by
  cases dl <;> rfl

end Sys2Proof.Machine
end

