-- ==== Sys2Proof/Laws/Run.lean ====
section
/-! SUPPORT. What the shared sequencing operations can do, each said once, and what a whole operation does when the block is stepped to its end. -/

namespace Sys2Proof.Machine

/-! ## One event -/

/-- Everything `advance` can do when it emits an event that is not the last. -/
theorem advance_of_lt {i : Instr} {ms : List Micro} {k : Nat}
    {done : State → Host.Outcome State Fault Refusal} {s : State} (h : k + 1 < ms.length) :
    advance i ms k done s =
      .next { emit (ms[k]'(Nat.lt_of_succ_lt h)) s with seq := .run i (k + 1) } := by
  have hk : k < ms.length := Nat.lt_of_succ_lt h
  simp [advance, List.getElem?_eq_getElem hk, h]

/-- Everything `advance` can do when it emits the last event. -/
theorem advance_of_last {i : Instr} {ms : List Micro} {k : Nat}
    {done : State → Host.Outcome State Fault Refusal} {s : State} (h : k + 1 = ms.length) :
    advance i ms k done s = done (emit (ms[k]'(h ▸ Nat.lt_succ_self k)) s) := by
  have hk : k < ms.length := h ▸ Nat.lt_succ_self k
  have hn : ¬ (k + 1 < ms.length) := by omega
  simp [advance, List.getElem?_eq_getElem hk, hn]

/-- Outside the list `advance` faults, and nowhere else. -/
theorem advance_of_ge {i : Instr} {ms : List Micro} {k : Nat}
    {done : State → Host.Outcome State Fault Refusal} {s : State} (h : ms.length ≤ k) :
    advance i ms k done s = .fault .positionOutOfRange := by
  simp [advance, List.getElem?_eq_none h]

/-- Everything `runOp` can do: nothing where LIFE does not admit the operation, its acceptance, one event of it, or a refusal where another operation is in progress. -/
theorem runOp_cases (i : Instr) (ms : List Micro) (a : Bool)
    (done : State → Host.Outcome State Fault Refusal) (s : State) :
    (s.seq = .idle ∧ a = false ∧ runOp i ms a done s = .next s) ∨
    (s.seq = .idle ∧ a = true ∧ runOp i ms a done s = accept i s) ∨
    (∃ k, s.seq = .run i k ∧ runOp i ms a done s = advance i ms k done s) ∨
    (∃ j k, j ≠ i ∧ s.seq = .run j k ∧ runOp i ms a done s = .refused .operationInProgress) := by
  unfold runOp
  cases h : s.seq with
  | idle => cases a <;> simp
  | run j k =>
    by_cases hj : j = i
    · subst hj; simp
    · simp [hj]

theorem runOp_running {i : Instr} {ms : List Micro} {a : Bool}
    {done : State → Host.Outcome State Fault Refusal} {s : State} {k : Nat}
    (h : s.seq = .run i k) : runOp i ms a done s = advance i ms k done s := by
  simp [runOp, h]

/-! ## The meaning of every instruction as one event of its sequence -/

/-- What follows an operation's last event (R110, R24). -/
def doneOf : Instr → State → Host.Outcome State Fault Refusal
  | .init => toReady
  | _ => toIdle

/-- The instruction's frames have the width of the instance (R113, R155, R156, R158). -/
def widthFits (i : Instr) (s : State) : Prop :=
  (needsWidth4 i = true → s.cfg.dl = false) ∧ (needsWidth8 i = true → s.cfg.dl = true)

/-- The two instructions that are not one fixed sequence of events. -/
def isSequence : Instr → Bool
  | .construct _ _ _ => false
  | .putString => false
  | _ => true

/-- With SEQ = (i, k), every instruction but CONSTRUCT and PUT_STRING emits event `k` of its sequence (R24). -/
theorem exec_running {i : Instr} {s : State} {k : Nat} (hi : isSequence i = true)
    (hw : widthFits i s) (hs : s.seq = .run i k) :
    exec i s = advance i (sequenceOf i s) k (doneOf i) s := by
  obtain ⟨h4, h8⟩ := hw
  cases i <;> simp only [isSequence, Bool.false_eq_true] at hi <;>
    simp only [needsWidth4, needsWidth8, Bool.false_eq_true, false_imp_iff, true_imp_iff] at h4 h8
  all_goals first
    | exact runOp_running hs
    | (simp only [exec, execRaw4Send, execForce4A, execForce4B, execFrame4, execDriveData4, h4,
        Bool.false_eq_true, if_false]; exact runOp_running hs)
    | (simp only [exec, execFrame8, execDriveData8, h8, if_true]; exact runOp_running hs)

/-- With SEQ = IDLE in a lifecycle that admits it, every instruction but CONSTRUCT and PUT_STRING is accepted: SEQ is (i, 0), no event (R24). -/
theorem exec_accepts {i : Instr} {s : State} (hi : isSequence i = true) (hw : widthFits i s)
    (hs : s.seq = .idle) (ha : Instr.admittedIn i s.life = true) :
    exec i s = .next { s with seq := .run i 0 } := by
  obtain ⟨h4, h8⟩ := hw
  have key : ∀ (ms : List Micro) (a : Bool) (done : State → _), a = true →
      runOp i ms a done s = .next { s with seq := .run i 0 } := by
    intro ms a done h; simp [runOp, hs, h, accept]
  cases i <;> simp only [isSequence, Bool.false_eq_true] at hi <;>
    simp only [needsWidth4, needsWidth8, Bool.false_eq_true, false_imp_iff, true_imp_iff] at h4 h8
  all_goals
    simp only [Instr.admittedIn] at ha
    first
    | exact key _ _ _ ha
    | (simp only [exec, execRaw4Send, execForce4A, execForce4B, execFrame4, execDriveData4, h4,
        Bool.false_eq_true, if_false]; exact key _ _ _ ha)
    | (simp only [exec, execFrame8, execDriveData8, h8, if_true]; exact key _ _ _ ha)

/-! ## Stepping an operation to its end -/

/-- While an operation is in progress a step is one event of it (R24). -/
theorem step_running {s : State} {i : Instr} {k : Nat} (hs : s.seq = .run i k) :
    step s = exec i s := by
  simp [step, fetch, hs]

theorem core_step (s : State) : core.step s = step s := rfl

/-- A run is a step and the rest of the run. -/
theorem run_succ (n : Nat) (s : State) : run (n + 1) s =
    match step s with
    | .next t => run n t
    | .fault r => .fault r
    | .refused r => .refused r := by
  cases h : step s with
  | next t => show Host.Core.run core (n + 1) s = _; simp only [Host.Core.run]; rw [show core.step s = .next t from h]; rfl
  | fault r => show Host.Core.run core (n + 1) s = _; simp only [Host.Core.run]; rw [show core.step s = .fault r from h]; rfl
  | refused r => show Host.Core.run core (n + 1) s = _; simp only [Host.Core.run]; rw [show core.step s = .refused r from h]; rfl

theorem run_zero (s : State) : run 0 s = .next s := rfl

/-- Runs compose. -/
theorem run_add (m n : Nat) (s t : State) (h : run m s = .next t) :
    run (m + n) s = run n t := by
  induction m generalizing s with
  | zero => rw [run_zero] at h; injection h with h; rw [Nat.zero_add, h]
  | succ m ih =>
    rw [Nat.succ_add, run_succ]
    rw [run_succ] at h
    split at h
    · rename_i t' ht; exact ih t' h
    · contradiction
    · contradiction

/-- What every step keeps, every run keeps. -/
theorem run_keeps {P : State → Prop} (hstep : ∀ s t, P s → step s = .next t → P t) {n : Nat}
    {s u : State} (hs : P s) (h : run n s = .next u) : P u := by
  induction n generalizing s with
  | zero => rw [run_zero] at h; injection h with h; exact h ▸ hs
  | succ n ih =>
    rw [run_succ] at h
    cases ht : step s with
    | next t => rw [ht] at h; exact ih (hstep s t hs ht) h
    | fault r => rw [ht] at h; cases h
    | refused r => rw [ht] at h; cases h

/-- What a sequence is does not change while it is emitted (R20, R35). -/
theorem sequenceOf_congr {i : Instr} {s t : State} (hi : isSequence i = true) (hp : t.par = s.par)
    (hc : t.cfg = s.cfg) : sequenceOf i t = sequenceOf i s := by
  cases i <;> simp_all [sequenceOf, isSequence]

theorem widthFits_congr {i : Instr} {s t : State} (hc : t.cfg = s.cfg) (h : widthFits i s) :
    widthFits i t := by
  unfold widthFits at *; rw [hc]; exact h

/-- From SEQ = (i, k) the rest of the events is emitted, one a step, and then the operation ends (R8, R24, R205). -/
theorem run_rest {i : Instr} (hi : isSequence i = true) {s : State} {k : Nat}
    (hw : widthFits i s) (hs : s.seq = .run i k) (hk : k < (sequenceOf i s).length) (n : Nat)
    (hn : n + 1 + k = (sequenceOf i s).length) :
    run (n + 1) s = doneOf i (emitAll ((sequenceOf i s).drop k) s) := by
  induction n generalizing s k with
  | zero =>
    have hlast : k + 1 = (sequenceOf i s).length := by omega
    rw [run_succ, step_running hs, exec_running hi hw hs, advance_of_last hlast,
      List.drop_eq_getElem_cons hk, List.drop_eq_nil_of_le (by omega)]
    have : ∀ t, ∃ u, doneOf i t = .next u := by
      intro t; cases i <;> exact ⟨_, rfl⟩
    obtain ⟨u, hu⟩ := this (emit (sequenceOf i s)[k] s)
    simp [hu, run_zero]
  | succ n ih =>
    have hlt : k + 1 < (sequenceOf i s).length := by omega
    rw [run_succ, step_running hs, exec_running hi hw hs, advance_of_lt hlt]
    have hq : sequenceOf i { emit (sequenceOf i s)[k] s with seq := .run i (k + 1) }
        = sequenceOf i s := sequenceOf_congr hi rfl rfl
    have := ih (s := { emit (sequenceOf i s)[k] s with seq := .run i (k + 1) }) (k := k + 1)
      (widthFits_congr (by rfl) hw) rfl (by rw [hq]; exact hlt) (by rw [hq]; omega)
    simp only [this, hq]
    rw [List.drop_eq_getElem_cons hk, emitAll_cons, emitAll_withSeq]
    cases i <;> rfl

/-- `doneOf` does not read SEQ. -/
theorem doneOf_withSeq (i : Instr) (q : Seq) (s : State) :
    doneOf i { s with seq := q } = doneOf i s := by
  cases i <;> rfl

/-- Every instruction's last event is followed by a next state. -/
theorem doneOf_next (i : Instr) (s : State) : ∃ u, doneOf i s = .next u := by
  cases i <;> exact ⟨_, rfl⟩

/-- An instruction that can start is accepted or emits its first event, and the steps after it emit the rest, ending as the rule says. -/
theorem exec_then_run {i : Instr} (hi : isSequence i = true) {s : State} (hw : widthFits i s)
    (hs : CanStart i s) {n : Nat} (hn : n + 1 = (sequenceOf i s).length) :
    ∃ t, exec i s = .next t ∧
      run (stepsLeft s (n + 1)) t = doneOf i (emitAll (sequenceOf i s) s) := by
  rcases hs with hs | ⟨hs, ha⟩
  · have h0 : 0 < (sequenceOf i s).length := by omega
    have hne : s.seq ≠ .idle := by rw [hs]; exact Seq.noConfusion
    have hrun := run_rest hi hw hs h0 n hn
    rw [List.drop_zero, run_succ, step_running hs] at hrun
    have hnext : ∃ t, exec i s = .next t := by
      rw [exec_running hi hw hs]
      cases n with
      | zero => rw [advance_of_last (by omega)]; exact doneOf_next i _
      | succ n => rw [advance_of_lt (by omega)]; exact ⟨_, rfl⟩
    obtain ⟨t, ht⟩ := hnext
    rw [ht] at hrun
    exact ⟨t, ht, by rw [stepsLeft, if_neg hne]; exact hrun⟩
  · refine ⟨_, exec_accepts hi hw hs ha, ?_⟩
    have hq : sequenceOf i { s with seq := .run i 0 } = sequenceOf i s :=
      sequenceOf_congr hi rfl rfl
    rw [stepsLeft, if_pos hs, run_rest (s := { s with seq := .run i 0 }) hi
      (widthFits_congr (by rfl) hw) rfl (by rw [hq]; omega) n (by rw [hq]; omega), hq,
      List.drop_zero, emitAll_withSeq, doneOf_withSeq]

end Sys2Proof.Machine
end

