-- ==== Sys2Proof/Laws/StringRun.lean ====
section
/-! SUPPORT. What one byte of PUT_STRING does when the block is stepped to the byte's end (R181, R182). -/

namespace Sys2Proof.Machine

/-- With SEQ = (PUT_STRING, k) a step is event `k` of the transmission of the byte in BYTE (R24). -/
theorem exec_putString_running {s : State} {k : Nat} (hs : s.seq = .run .putString k) :
    exec .putString s = advanceChar k s := by
  simp [exec, execPutString, hs]

/-- Emitting events of the byte in BYTE leaves that byte there. -/
theorem emit_sendData_byte {p : Params} {dl : Bool} {rs : Level} {s : State} {m : Micro}
    (hm : m ∈ seqTransmit p dl rs s.byte) : (emit m s).byte = s.byte := by
  have h : ∀ m ∈ seqTransmit p dl rs s.byte, m.byte.getD s.byte = s.byte := by
    cases dl <;> simp [seqTransmit, seqTransmit8, seqTransmit4, seqHead, seqSelect, seqPin,
      seqFrame8, seqFrame4, seqDriveData8, seqDriveData4, seqPulse, seqDelay]
  exact h m hm

/-- The end of a byte does not read SEQ. -/
theorem endChar_withSeq (q : Seq) (s : State) : endChar { s with seq := q } = endChar s := rfl

/-- From SEQ = (PUT_STRING, k) the rest of the byte's events is emitted, one a step, and then the next byte is fetched (R182). -/
theorem run_char {s : State} {k n : Nat} {ms : List Micro} (hs : s.seq = .run .putString k)
    (hms : ms = seqSendData s.par s.cfg.dl s.byte) (hn : n + 1 + k = ms.length) :
    run (n + 1) s = endChar (emitAll (ms.drop k) s) := by
  have hk : k < ms.length := by omega
  induction n generalizing s k with
  | zero =>
    rw [run_succ, step_running hs, exec_putString_running hs, advanceChar, ← hms,
      advance_of_last (by omega), List.drop_eq_getElem_cons hk, List.drop_eq_nil_of_le (by omega)]
    simp only [emitAll_cons, emitAll_nil]
    cases endChar _ <;> rfl
  | succ n ih =>
    rw [run_succ, step_running hs, exec_putString_running hs, advanceChar, ← hms,
      advance_of_lt (by omega)]
    have hb : (emit ms[k] s).byte = s.byte := by
      have hm : ∀ m ∈ ms, (emit m s).byte = s.byte := by
        rw [hms]; exact fun m hm => emit_sendData_byte hm
      exact hm _ (List.getElem_mem hk)
    refine (ih (s := { emit ms[k] s with seq := .run .putString (k + 1) }) rfl
      (hms.trans (congrArg (seqSendData s.par s.cfg.dl) hb.symm)) (by omega) (by omega)).trans ?_
    rw [List.drop_eq_getElem_cons hk, emitAll_cons, emitAll_withSeq, endChar_withSeq]

end Sys2Proof.Machine
end

