-- ==== Sys2Proof/Laws/Step.lean ====
section
/-! SUPPORT. Everything one step can do, said once for each kind of instruction: a claim about every step is a case analysis over these. -/

namespace Sys2Proof.Machine

/-- Everything a sequence instruction can do when it gives a next state: nothing where LIFE does not admit it, its acceptance, or one event of its sequence (R24, R203). -/
theorem exec_next_cases {i : Instr} {s t : State} (hi : isSequence i = true)
    (h : exec i s = .next t) :
    (s.seq = .idle ∧ Instr.admittedIn i s.life = false ∧ widthFits i s ∧ t = s) ∨
    (s.seq = .idle ∧ Instr.admittedIn i s.life = true ∧ widthFits i s ∧
      t = { s with seq := .run i 0 }) ∨
    (∃ k m, s.seq = .run i k ∧ widthFits i s ∧ (sequenceOf i s)[k]? = some m ∧
      ((k + 1 < (sequenceOf i s).length ∧ t = { emit m s with seq := .run i (k + 1) }) ∨
       (k + 1 = (sequenceOf i s).length ∧
        t = { emit m s with seq := .idle, life := if i = .init then .ready else s.life }))) := by
  have hw : widthFits i s := by
    constructor
    · intro h4
      cases i <;> simp only [needsWidth4, Bool.false_eq_true] at h4 <;>
        (cases hd : s.cfg.dl with
         | false => rfl
         | true => simp [exec, execForce4A, execForce4B, execRaw4Send, execFrame4,
             execDriveData4, hd] at h)
    · intro h8
      cases i <;> simp only [needsWidth8, Bool.false_eq_true] at h8 <;>
        (cases hd : s.cfg.dl with
         | true => rfl
         | false => simp [exec, execFrame8, execDriveData8, hd] at h)
  have one : ∀ k, exec i s = advance i (sequenceOf i s) k (doneOf i) s →
      ∃ m, (sequenceOf i s)[k]? = some m ∧
        ((k + 1 < (sequenceOf i s).length ∧ t = { emit m s with seq := .run i (k + 1) }) ∨
         (k + 1 = (sequenceOf i s).length ∧
          t = { emit m s with seq := .idle, life := if i = .init then .ready else s.life })) := by
    intro k hk
    rw [hk, advance] at h
    cases hm : (sequenceOf i s)[k]? with
    | none => simp [hm] at h
    | some m =>
      refine ⟨m, rfl, ?_⟩
      simp only [hm] at h
      have hlt : k < (sequenceOf i s).length := (List.getElem?_eq_some_iff.1 hm).1
      split at h
      · rename_i hl
        injection h with h
        exact .inl ⟨hl, h.symm⟩
      · refine .inr ⟨by omega, ?_⟩
        cases i <;> simpa [doneOf, toIdle, toReady] using h.symm
  cases hs : s.seq with
  | idle =>
    cases ha : Instr.admittedIn i s.life with
    | true =>
      rw [exec_accepts hi hw hs ha] at h
      injection h with h
      exact .inr (.inl ⟨rfl, rfl, hw, h.symm⟩)
    | false =>
      have hw' := hw
      obtain ⟨h4, h8⟩ := hw
      have key : ∀ (ms : List Micro) (a : Bool) (done : State → _), a = false →
          runOp i ms a done s = .next s := by
        intro ms a done hf; simp [runOp, hs, hf]
      refine .inl ⟨rfl, rfl, hw', ?_⟩
      have : exec i s = .next s := by
        cases i <;> simp only [isSequence, Bool.false_eq_true] at hi <;>
          simp only [needsWidth4, needsWidth8, Bool.false_eq_true, false_imp_iff,
            true_imp_iff] at h4 h8 <;> simp only [Instr.admittedIn] at ha
        all_goals first
          | exact key _ _ _ ha
          | (simp only [exec, execRaw4Send, execForce4A, execForce4B, execFrame4, execDriveData4,
              h4, Bool.false_eq_true, if_false]; exact key _ _ _ ha)
          | (simp only [exec, execFrame8, execDriveData8, h8, if_true]; exact key _ _ _ ha)
      rw [this] at h; injection h with h; exact h.symm
  | run j k =>
    by_cases hj : j = i
    · subst hj
      obtain ⟨m, hm, hr⟩ := one k (exec_running hi hw hs)
      exact .inr (.inr ⟨k, m, rfl, hw, hm, hr⟩)
    · exfalso
      obtain ⟨h4, h8⟩ := hw
      have key : ∀ (ms : List Micro) (a : Bool) (done : State → _),
          runOp i ms a done s = .refused .operationInProgress := by
        intro ms a done; simp [runOp, hs, hj]
      have : exec i s = .refused .operationInProgress := by
        cases i <;> simp only [isSequence, Bool.false_eq_true] at hi <;>
          simp only [needsWidth4, needsWidth8, Bool.false_eq_true, false_imp_iff,
            true_imp_iff] at h4 h8
        all_goals first
          | exact key _ _ _
          | (simp only [exec, execRaw4Send, execForce4A, execForce4B, execFrame4, execDriveData4,
              h4, Bool.false_eq_true, if_false]; exact key _ _ _)
          | (simp only [exec, execFrame8, execDriveData8, h8, if_true]; exact key _ _ _)
      rw [this] at h; cases h

/-- The events of one byte of PUT_STRING: 14 or 17 (R167). -/
@[simp] theorem length_seqSendData (p : Params) (dl : Bool) (b : Byte) :
    (seqSendData p dl b).length = txCount dl := length_seqTransmit p dl _ b

/-- A byte's transmission has more than one event. -/
theorem one_lt_txCount (dl : Bool) : 1 < txCount dl := by cases dl <;> decide

/-- Everything PUT_STRING can do when it gives a next state: nothing outside READY; with SEQ = IDLE it ends at once on an empty string or holds the first byte, SEQ at (PUT_STRING, 0); with SEQ = (PUT_STRING, k) it emits event `k`, and after the last it ends at a sentinel or holds the next byte (R181, R182). -/
theorem exec_putString_cases {s t : State} (h : exec .putString s = .next t) :
    (s.seq = .idle ∧ s.life ≠ .ready ∧ t = s) ∨
    (s.seq = .idle ∧ s.life = .ready ∧ s.str.read 0 = some Config.sentinel ∧
      t = { s with seq := .idle, strpos := 0 }) ∨
    (∃ c, s.seq = .idle ∧ s.life = .ready ∧ s.str.stringLength.isSome = true ∧
      s.str.read 0 = some c ∧ c ≠ Config.sentinel ∧
      t = { s with strpos := 0, byte := c, seq := .run .putString 0 }) ∨
    (∃ k m, s.seq = .run .putString k ∧ (seqSendData s.par s.cfg.dl s.byte)[k]? = some m ∧
      ((k + 1 < txCount s.cfg.dl ∧ t = { emit m s with seq := .run .putString (k + 1) }) ∨
       (k + 1 = txCount s.cfg.dl ∧ s.str.read (s.strpos + 1) = some Config.sentinel ∧
        t = { emit m s with strpos := s.strpos + 1, seq := .idle }) ∨
       (k + 1 = txCount s.cfg.dl ∧ ∃ c, s.str.read (s.strpos + 1) = some c ∧ c ≠ Config.sentinel ∧
        t = { emit m s with strpos := s.strpos + 1, byte := c, seq := .run .putString 0 }))) := by
  simp only [exec, execPutString] at h
  cases hs : s.seq with
  | idle =>
    simp only [hs] at h
    by_cases hr : s.life = .ready
    · have hready : s.isReady = true := decide_eq_true hr
      simp only [hready, if_true, beginString] at h
      cases hl : s.str.stringLength with
      | none => simp [hl] at h
      | some n =>
        simp only [hl, fetchChar] at h
        cases hc : s.str.read 0 with
        | none => simp [hc] at h
        | some c =>
          simp only [hc] at h
          by_cases h0 : c = Config.sentinel
          · simp only [h0, if_true, toIdle] at h
            injection h with h
            exact .inr (.inl ⟨rfl, hr, by rw [h0], h.symm⟩)
          · simp only [h0, if_false, toNextChar, accept] at h
            injection h with h
            exact .inr (.inr (.inl ⟨c, rfl, hr, by simp, rfl, h0, h.symm⟩))
    · simp only [State.isReady, hr, decide_false, Bool.false_eq_true, if_false] at h
      injection h with h
      exact .inl ⟨rfl, hr, h.symm⟩
  | run j k =>
    simp only [hs] at h
    by_cases hj : j = .putString
    · subst hj
      simp only [if_true, advanceChar, advance] at h
      cases hm : (seqSendData s.par s.cfg.dl s.byte)[k]? with
      | none => simp [hm] at h
      | some m =>
        simp only [hm, length_seqSendData] at h
        have hlt : k < txCount s.cfg.dl := by
          have := (List.getElem?_eq_some_iff.1 hm).1; simpa using this
        refine .inr (.inr (.inr ⟨k, m, rfl, hm, ?_⟩))
        split at h
        · rename_i hl
          injection h with h
          exact .inl ⟨hl, h.symm⟩
        · simp only [endChar, fetchChar, emit_str, emit_strpos] at h
          cases hc : s.str.read (s.strpos + 1) with
          | none => simp [hc] at h
          | some c =>
            simp only [hc] at h
            by_cases h0 : c = Config.sentinel
            · simp only [h0, if_true, toIdle] at h
              injection h with h
              exact .inr (.inl ⟨by omega, by rw [h0], h.symm⟩)
            · simp only [h0, if_false, toNextChar, accept] at h
              injection h with h
              exact .inr (.inr ⟨by omega, c, rfl, h0, h.symm⟩)
    · simp [hj] at h

/-- Everything CONSTRUCT can do when it gives a next state: the one exception, or a new instance (R110, R191). -/
theorem exec_construct_cases {d n f : Bool} {s t : State} (h : exec (.construct d n f) s = .next t) :
    s.seq = .idle ∧
    ((s.pinsArg.data.length ≠ widthOf d ∧ t = takeConfigError s.pinsArg.data.length (widthOf d) s) ∨
     (s.pinsArg.data.length = widthOf d ∧ s.pinsArg.distinct = true ∧ t = beginInstance d n f s)) := by
  simp only [exec, execConstruct] at h
  cases hs : s.seq with
  | run j k => simp [hs] at h
  | idle =>
    simp only [hs] at h
    refine ⟨rfl, ?_⟩
    by_cases hl : s.pinsArg.data.length = widthOf d
    · by_cases hd : s.pinsArg.distinct = true
      · simp only [hl, hd, ne_eq, not_true, if_false, if_true] at h
        injection h with h
        exact .inr ⟨hl, hd, h.symm⟩
      · simp [hl, hd] at h
    · simp only [ne_eq, hl, not_false_iff, if_true] at h
      injection h with h
      exact .inl ⟨hl, h.symm⟩

/-- Every construction word is `DL N F` (R89). -/
theorem constructWord_eq : ∀ w : BitVec 3, constructWord w =
    some (.construct (bitOf w.toNat 2) (bitOf w.toNat 1) (bitOf w.toNat 0)) := by decide

/-- Everything a step can do before it runs an instruction: the operation in SEQ, or with SEQ = IDLE the host's next item (R24, R88, R203). -/
theorem step_cases {s t : State} (h : step s = .next t) :
    (∃ i k, s.seq = .run i k ∧ exec i s = .next t) ∨
    (s.seq = .idle ∧ s.port = [] ∧ t = s) ∨
    (∃ x rest, s.seq = .idle ∧ s.port = x :: rest ∧ t = { s with port := rest }) ∨
    (∃ w pins rest d n f, s.seq = .idle ∧ s.port = .construct w pins :: rest ∧
      exec (.construct d n f) { s with port := rest, pinsArg := pins } = .next t) ∨
    (∃ w m rest i, s.seq = .idle ∧ s.life = .ready ∧ s.port = .request w m :: rest ∧
      i.isPublic = true ∧ hostRequest w = some i ∧
      exec i { s with port := rest, str := m } = .next t) := by
  cases hs : s.seq with
  | run i k => rw [step_running hs] at h; exact .inl ⟨i, k, rfl, h⟩
  | idle =>
    simp only [step, fetch, hs, takePresented] at h
    cases hp : s.port with
    | nil => simp only [hp] at h; injection h with h; exact .inr (.inl ⟨rfl, rfl, h.symm⟩)
    | cons x rest =>
      cases x with
      | teardown =>
        simp only [hp] at h; injection h with h
        exact .inr (.inr (.inl ⟨_, rest, rfl, rfl, h.symm⟩))
      | construct w pins =>
        simp only [hp] at h
        rw [constructWord_eq w] at h
        exact .inr (.inr (.inr (.inl ⟨w, pins, rest, _, _, _, rfl, rfl, h⟩)))
      | request w m =>
        simp only [hp] at h
        cases hr : hostRequest w with
        | none =>
          simp only [hr] at h; injection h with h
          exact .inr (.inr (.inl ⟨_, rest, rfl, rfl, h.symm⟩))
        | some i =>
          simp only [hr] at h
          by_cases hl : s.life = .ready
          · have hready : s.isReady = true := decide_eq_true hl
            simp only [hready, if_true] at h
            refine .inr (.inr (.inr (.inr ⟨w, m, rest, i, rfl, hl, rfl, ?_, hr, h⟩)))
            simp only [hostRequest] at hr
            split at hr
            · cases hr
            · split at hr
              · rename_i hpub; injection hr with hr; exact hr ▸ hpub
              · cases hr
          · simp only [State.isReady, hl, decide_false, Bool.false_eq_true, if_false] at h
            injection h with h
            exact .inr (.inr (.inl ⟨_, rest, rfl, rfl, h.symm⟩))

end Sys2Proof.Machine
end

