-- ==== Sys2Proof/Laws/Trace.lean ====
section
/-! SUPPORT. How the properties of a trace read over appended lists, and how the observation levels read a transmission (R161, R162, R163). -/

namespace Sys2Proof.Machine

theorem enableAfter_append (e : Level) (a b : List Event) :
    enableAfter e (a ++ b) = enableAfter (enableAfter e a) b := by
  induction a generalizing e with
  | nil => rfl
  | cons x a ih =>
    cases x with
    | delay n => simp [enableAfter, ih]
    | setPin s v => cases s <;> simp [enableAfter, ih]

theorem quiet_append (e : Level) (a b : List Event) :
    quiet e (a ++ b) = (quiet e a && quiet (enableAfter e a) b) := by
  induction a generalizing e with
  | nil => simp [quiet, enableAfter]
  | cons x a ih =>
    cases x with
    | delay n => simp [quiet, enableAfter, ih]
    | setPin s v => cases s <;> simp [quiet, enableAfter, ih, Bool.and_assoc]

/-- A held strobe stays held when more events follow. -/
theorem strobesHeld_append (n : Nat) (a b : List Event) (ha : strobesHeld n a = true)
    (hb : strobesHeld n b = true) : strobesHeld n (a ++ b) = true := by
  induction a with
  | nil => exact hb
  | cons x a ih =>
    cases x with
    | delay m => simp only [strobesHeld, List.cons_append] at *; exact ih ha
    | setPin s v =>
      cases s <;> cases v <;> simp only [strobesHeld, List.cons_append, Bool.and_eq_true] at * <;>
        try exact ih ha
      refine ⟨?_, ih ha.2⟩
      have h1 := ha.1
      split at h1
      · simpa using h1
      · cases h1

/-- A settled trace stays settled when a list that starts with a delay follows. -/
theorem settled_append_delay (n p m : Nat) (a b : List Event) :
    settled n p (a ++ .delay m :: b) = (settled n p a && settled n m b) := by
  induction a generalizing p with
  | nil => simp [settled]
  | cons x a ih =>
    cases x with
    | delay k => simp [settled, ih]
    | setPin s v => cases s <;> simp [settled, ih, Bool.and_assoc]

/-- Every first part of a settled trace is settled. -/
theorem settled_of_append (n p : Nat) (a b : List Event) (h : settled n p (a ++ b) = true) :
    settled n p a = true := by
  induction a generalizing p with
  | nil => rfl
  | cons x a ih =>
    cases x with
    | delay m => simp only [settled, List.cons_append] at *; exact ih _ h
    | setPin s v =>
      cases s <;> simp only [settled, List.cons_append, Bool.and_eq_true] at * <;>
        first | exact ih _ h | exact ⟨h.1, ih _ h.2⟩

theorem rwAlwaysWrite_append (w : Level) (a b : List Event) :
    rwAlwaysWrite w (a ++ b) = (rwAlwaysWrite w a && rwAlwaysWrite w b) := by
  simp [rwAlwaysWrite]

theorem linesExist_append (n : Nat) (a b : List Event) :
    linesExist n (a ++ b) = (linesExist n a && linesExist n b) := by
  simp [linesExist]

/-- The events of a list of transmissions, one transmission at a time. -/
@[simp] theorem txsEvents_cons (p : Params) (dl : Bool) (x : Level × Byte) (l : List (Level × Byte)) :
    txsEvents p dl (x :: l) = txEvents p dl x.1 x.2 ++ txsEvents p dl l := by
  simp [txsEvents]

/-- Eight line levels put together again are the byte (R161). -/
theorem byte_of_bits : ∀ v : Byte,
    bitByte (v.getLsbD 0) ||| bitByte (v.getLsbD 1) <<< 1 ||| bitByte (v.getLsbD 2) <<< 2 |||
      bitByte (v.getLsbD 3) <<< 3 ||| (bitByte (v.getLsbD 4) <<< 4 ||| bitByte (v.getLsbD 5) <<< 5 |||
      bitByte (v.getLsbD 6) <<< 6 ||| bitByte (v.getLsbD 7) <<< 7) = v := by decide

/-- The high four line levels of a byte put together are its high nibble (R86, R161). -/
theorem hi_of_bits : ∀ v : Byte,
    bitByte (v.getLsbD 4) ||| bitByte (v.getLsbD 5) <<< 1 ||| bitByte (v.getLsbD 6) <<< 2 |||
      bitByte (v.getLsbD 7) <<< 3 = (hi v).setWidth 8 := by decide

/-- The low four line levels of a byte put together are its low nibble (R86, R161). -/
theorem lo_of_bits : ∀ v : Byte,
    bitByte (v.getLsbD 0) ||| bitByte (v.getLsbD 1) <<< 1 ||| bitByte (v.getLsbD 2) <<< 2 |||
      bitByte (v.getLsbD 3) <<< 3 = (lo v).setWidth 8 := by decide

/-- The two nibbles make the byte (R86). -/
theorem byte_of_nibbles : ∀ b : Byte, ((hi b).setWidth 8 <<< 4) ||| (lo b).setWidth 8 = b := by
  decide

/-- Level W of a transmission: the settle wait, then one 8-bit latch or two 4-bit latches (R161). -/
theorem levelW_tx (p : Params) (dl : Bool) (rs : Level) (b : Byte) (q : Pins) (hq : q.e = false)
    (es : List Event) :
    levelW (if dl then 8 else 4) q (txEvents p dl rs b ++ es) =
      .wait p.tSettle ::
        (if dl then [.latch rs p.rwWrite 8 b]
         else [.latch rs p.rwWrite 4 ((hi b).setWidth 8), .latch rs p.rwWrite 4 ((lo b).setWidth 8)]) ++
        levelW (if dl then 8 else 4) (txPins p dl rs b q) es := by
  obtain ⟨rs', rw, e, d0, d1, d2, d3, d4, d5, d6, d7⟩ := q
  simp only at hq
  subst hq
  cases dl
  · have h1 := hi_of_bits b
    have h2 := lo_of_bits b
    simp [levelW, txEvents, tx4, Pins.set, Pins.dataValue, txPins]
    exact ⟨h1, h2⟩
  · have h1 := byte_of_bits b
    simp [levelW, txEvents, tx8, Pins.set, Pins.dataValue, txPins]
    exact h1

/-- Level B of a transmission is one item (R162). -/
theorem levelB_tx (p : Params) (dl : Bool) (rs : Level) (b : Byte) (q : Pins) (hq : q.e = false)
    (es : List Event) :
    levelB (levelW (if dl then 8 else 4) q (txEvents p dl rs b ++ es)) =
      (levelB (levelW (if dl then 8 else 4) (txPins p dl rs b q) es)).map (fun l => .tx rs b :: l) := by
  rw [levelW_tx p dl rs b q hq es]
  cases dl <;> simp [levelB, byte_of_nibbles]

/-- A transmission leaves Enable at 0 (R164). -/
@[simp] theorem txPins_e (p : Params) (dl : Bool) (rs : Level) (b : Byte) (q : Pins) :
    (txPins p dl rs b q).e = false := by
  cases dl <;> rfl

end Sys2Proof.Machine
end

