-- ==== Sys2Proof/Tests/Slice0.lean ====
section
/-! SUPPORT. The model's own tests: words written out from spec/opcode_table.json, event lists and end states from 95_test_vectors.md, and for every obligation with hypotheses a concrete state and operands that meet them. No expected value is the model's own output. -/

open Sys2Proof Sys2Proof.Machine

namespace Sys2Proof.Tests

/-! ## Small states -/

/-- An idle READY instance on a bus of the given width, 2 lines, 5x7. -/
def ready (dl : Bool) : State :=
  { State.unbuilt with
    life := .ready, cfg := { dl := dl, n := true, f := false }, pinmap := Config.pins (widthOf dl) }

/-- The same instance inside an instruction, before its event `k`. -/
def inside (dl : Bool) (i : Instr) (k : Nat) : State := { ready dl with seq := .run i k }

/-- A READY idle instance whose host presents one item. -/
def presented (dl : Bool) (x : Presented) : State := { ready dl with port := [x] }

/-- A block no instance was built in, with a Pin Assignment of `n` Data lines presented. -/
def assigned (n : Nat) : State := { State.unbuilt with pinsArg := Config.pins n }

/-- What one execution adds to the trace of a block whose trace is empty. -/
def emits (o : Host.Outcome State Fault Refusal) : Option (List Event) :=
  match o with
  | .next t => some t.trace
  | .fault _ => none
  | .refused _ => none

/-- One observation of a next state. -/
def seen {α : Type} (f : State → α) (o : Host.Outcome State Fault Refusal) : Option α :=
  match o with
  | .next t => some (f t)
  | .fault _ => none
  | .refused _ => none

/-- The reason of a refusal. -/
def refusal (o : Host.Outcome State Fault Refusal) : Option Refusal :=
  match o with
  | .next _ => none
  | .fault _ => none
  | .refused r => some r

/-- The events of an instruction at the default parameters. -/
def events (i : Instr) (dl : Bool) : List Event := eventsOf (sequenceOf i (ready dl))

/-- 8-bit Data writes of `b7 .. b0` given as levels of lines 0 to 7 (the notation of V3). -/
def d8 (a0 a1 a2 a3 a4 a5 a6 a7 : Level) : List Event :=
  [.setPin (.d 0) a0, .setPin (.d 1) a1, .setPin (.d 2) a2, .setPin (.d 3) a3,
   .setPin (.d 4) a4, .setPin (.d 5) a5, .setPin (.d 6) a6, .setPin (.d 7) a7]

/-- 4-bit Data writes (the notation of V4). -/
def d4 (a0 a1 a2 a3 : Level) : List Event :=
  [.setPin (.d 0) a0, .setPin (.d 1) a1, .setPin (.d 2) a2, .setPin (.d 3) a3]

/-- `~5 RS:rs RW:0`. -/
def settle (rs : Level) : List Event := [.delay 5, .setPin .rs rs, .setPin .rw false]

/-- `E:1 ~1 E:0`. -/
def strobed : List Event := [.setPin .e true, .delay 1, .setPin .e false]

/-! ## WellFormed: the one check refuses an ill-formed term -/

/-- DELAY's field has 6 bits (R199). -/
theorem test_wf_refuses_delay_64 : Instr.wf (.delay 64) = false := rfl

theorem test_wf_accepts_delay_63 : Instr.wf (.delay 63) = true := rfl

/-! ## Decoding: a word of every row, written out from the opcode table -/

/-- CONSTRUCT `dnf`: 4-bit, 2 lines, 5x7 is 0 1 0 (P2). -/
theorem test_decode_construct : decode .cfg3 0b010 = .ok (.construct false true false) := rfl

/-- INIT 0xF00 (R89). -/
theorem test_decode_init : decode .req12 0b111100000000 = .ok .init := rfl

/-- TURN_ON `0001 000000 cs` (V13). -/
theorem test_decode_turnOn : decode .req12 0b000100000001 = .ok (.turnOn .blinkOn) := rfl

/-- TURN_OFF 0x200 (V13). -/
theorem test_decode_turnOff : decode .req12 0b001000000000 = .ok .turnOff := rfl

/-- CLEAR 0x300 (V13). -/
theorem test_decode_clear : decode .req12 0b001100000000 = .ok .clear := rfl

/-- PUT_CHAR `0100 bbbbbbbb`: 0x441 is 'A' (V13). -/
theorem test_decode_putChar : decode .req12 0b010001000001 = .ok (.putChar 0x41#8) := rfl

/-- PUT_STRING 0x500 (V13). -/
theorem test_decode_putString : decode .req12 0b010100000000 = .ok .putString := rfl

theorem test_decode_clearDisplay : decode .w9 0b000000001 = .ok .clearDisplay := rfl

theorem test_decode_returnHome : decode .w9 0b000000010 = .ok .returnHome := rfl

theorem test_decode_entryModeRight : decode .w9 0b000000110 = .ok .entryModeRight := rfl

theorem test_decode_displayOff : decode .w9 0b000001000 = .ok .displayOff := rfl

theorem test_decode_displayOnCursorOff : decode .w9 0b000001100 = .ok .displayOnCursorOff := rfl

theorem test_decode_displayOnCursorSteady :
    decode .w9 0b000001110 = .ok .displayOnCursorSteady := rfl

theorem test_decode_displayOnCursorBlink : decode .w9 0b000001111 = .ok .displayOnCursorBlink := rfl

/-- FUNCTION_SET `0 001d nf00`: 0x34 is 8-bit, 1 line, 5x10 (S1). -/
theorem test_decode_functionSet : decode .w9 0b000110100 = .ok (.functionSet true false true) := rfl

theorem test_decode_force4A : decode .w9 0b000110011 = .ok .force4A := rfl

theorem test_decode_force4B : decode .w9 0b000110010 = .ok .force4B := rfl

/-- DATA_WRITE `1 bbbbbbbb`. -/
theorem test_decode_dataWrite : decode .w9 0b110100101 = .ok (.dataWrite 0xA5#8) := rfl

/-- FRAME4 `r 0 vvvv`. -/
theorem test_decode_frame4 : decode .latch4 0b101010 = .ok (.frame4 true 0xA#4) := rfl

/-- FRAME8 `r 0 vvvvvvvv`. -/
theorem test_decode_frame8 : decode .latch8 0b1001011010 = .ok (.frame8 true 0x5A#8) := rfl

/-- TRANSMIT `r bbbbbbbb`. -/
theorem test_decode_transmit : decode .imageTransmit 0b101000001 = .ok (.transmit true 0x41#8) := rfl

theorem test_decode_sendCommand :
    decode .imageSendCommand 0b000001100 = .ok (.sendCommand 0x0C#8) := rfl

theorem test_decode_sendData : decode .imageSendData 0b101111110 = .ok (.sendData 0x7E#8) := rfl

theorem test_decode_raw4Send : decode .imageRaw4Send 0b000110010 = .ok (.raw4Send 0x32#8) := rfl

theorem test_decode_select : decode .imageSelect 0b1 = .ok (.select true) := rfl

theorem test_decode_driveData4 : decode .imageDriveData4 0b0101 = .ok (.driveData4 0x5#4) := rfl

theorem test_decode_driveData8 : decode .imageDriveData8 0b10000001 = .ok (.driveData8 0x81#8) := rfl

theorem test_decode_frame : decode .imageFrame 0b11110000 = .ok (.frame 0xF0#8) := rfl

/-- PULSE: the levels 1, 0 in order. -/
theorem test_decode_pulse : decode .imagePulse 0b10 = .ok .pulse := rfl

theorem test_decode_delay : decode .imageDelay 0b110010 = .ok (.delay 50) := rfl

/-! ## Reserved words are refused by name (V13, R83, R81, R95) -/

theorem test_reject_cursor_3 : decode .req12 0x103 = .error .reservedCursorState := rfl

theorem test_reject_turnOn_argument : decode .req12 0x104 = .error .reservedArgument := rfl

theorem test_reject_turnOff_argument : decode .req12 0x201 = .error .reservedArgument := rfl

theorem test_reject_clear_argument : decode .req12 0x3FF = .error .reservedArgument := rfl

theorem test_reject_putString_argument : decode .req12 0x501 = .error .reservedArgument := rfl

theorem test_reject_op_0 : decode .req12 0x000 = .error .reservedOperation := rfl

theorem test_reject_op_6 : decode .req12 0x600 = .error .reservedOperation := rfl

theorem test_reject_op_14 : decode .req12 0xE00 = .error .reservedOperation := rfl

/-- 0x80 (a DDRAM address command) is outside the closed set (R83, R91). -/
theorem test_reject_ddram_command : decode .w9 0x080 = .error .commandNotEmitted := rfl

/-- A function set with a low bit is outside the closed set (R83). -/
theorem test_reject_function_set_low_bit : decode .w9 0x039 = .error .commandNotEmitted := rfl

theorem test_reject_read_frame : decode .latch4 0b010000 = .error .frameNotWrite := rfl

theorem test_reject_falling_first_pulse : decode .imagePulse 0b01 = .error .notAPulse := rfl

theorem test_reject_command_image_with_rs :
    decode .imageSendCommand 0b100000001 = .error .wrongRegisterSelect := rfl

theorem test_reject_too_wide : decode .cfg3 8 = .error .tooWide := rfl

/-- INIT is no host request (V13: 0xF00 is refused from the host). -/
theorem test_host_init_refused : hostRequest 0xF00#12 = none := rfl

/-- V13: 0x4FF is accepted. -/
theorem test_host_putChar : hostRequest 0x4FF#12 = some (.putChar 0xFF#8) := rfl

/-! ## The encoder writes the table's words -/

theorem test_encode_functionSet : encode (.functionSet true true false) = 0x038 := rfl

theorem test_encode_frame8 : encode (.frame8 true 0x38#8) = 0x238 := rfl

/-! ## A table word without its format, and the fetch (log entry 4) -/

theorem test_table_turnOn : decodeTableWord 12 0x101 = some (.turnOn .blinkOn) := rfl

theorem test_table_functionSet : decodeTableWord 9 0x038 = some (.functionSet true true false) := rfl

theorem test_table_frame8 : decodeTableWord 10 0x238 = some (.frame8 true 0x38#8) := rfl

theorem test_table_reserved_request :
    decodeTableWord 12 0x103 = none ∧ decodeTableWord 16 0x103 = none := ⟨rfl, rfl⟩

/-- A request word placed after reset is accepted by the very next step (R24: `pc <- (op, 0)`). -/
theorem test_place_putChar :
    seen (fun t => (t.seq, t.trace)) (step (State.reset.withFetchWord 12 0x441)) =
      some (.run (.putChar 0x41#8) 0, []) := rfl

/-- A wire word placed after reset runs as the very next step. -/
theorem test_place_clearDisplay :
    seen State.seq (step (State.reset.withFetchWord 9 0x001)) = some (.run .clearDisplay 1) := rfl

/-! ## The sequences against the vectors -/

/-- V5, 8-bit `Transmit(0, 0x38)`. -/
theorem test_transmit_8bit : events (.transmit false 0x38#8) true =
    settle false ++ d8 false false false true true true false false ++ strobed := by decide

/-- V5, 4-bit `Transmit(1, 0xA5)`. -/
theorem test_transmit_4bit : events (.transmit true 0xA5#8) false =
    settle true ++ d4 false true false true ++ strobed ++ d4 true false true false ++ strobed := by
  decide

/-- V5, 8-bit `Transmit(1, 0x00)`: every line at 0, the strobe still pulses. -/
theorem test_putChar_zero_8bit : events (.putChar 0x00#8) true =
    settle true ++ d8 false false false false false false false false ++ strobed := by decide

/-- V10 with V5, 4-bit `Transmit(1, 0x41)`. -/
theorem test_putChar_4bit : events (.putChar 0x41#8) false =
    settle true ++ d4 false false true false ++ strobed ++ d4 true false false false ++ strobed := by
  decide

/-- V8, TURN_ON blink-on, 4-bit: `Transmit(0, 0x0F)` of V5. -/
theorem test_turnOn_blink_4bit : events (.turnOn .blinkOn) false =
    settle false ++ d4 false false false false ++ strobed ++ d4 true true true true ++ strobed := by
  decide

/-- V8, TURN_ON blink-off is 0x0E. -/
theorem test_turnOn_steady_8bit : events (.turnOn .blinkOff) true =
    settle false ++ d8 false true true true false false false false ++ strobed := by decide

/-- V16: TURN_OFF, 8-bit, leaves only D(3) high. -/
theorem test_turnOff_8bit : events .turnOff true =
    settle false ++ d8 false false false true false false false false ++ strobed := by decide

/-- V9, CLEAR, 8-bit: 0x01 then 0x02. -/
theorem test_clear_8bit : events .clear true =
    settle false ++ d8 true false false false false false false false ++ strobed ++
    settle false ++ d8 false true false false false false false false ++ strobed := by decide

/-- V7: the first transmission of the 4-bit INIT is 0x33, after `~50`. -/
theorem test_init_4bit_head : (events .init false).take 18 =
    .delay 50 :: settle false ++ d4 true true false false ++ strobed ++
      d4 true true false false ++ strobed := by decide

/-- V7: the last transmission of the 8-bit INIT is 0x06, and there are 71 events. -/
theorem test_init_8bit_tail : (events .init true).drop 57 =
    settle false ++ d8 false true true false false false false false ++ strobed := by decide

theorem test_clearDisplay : events .clearDisplay true =
    settle false ++ d8 true false false false false false false false ++ strobed := by decide

theorem test_returnHome : events .returnHome true =
    settle false ++ d8 false true false false false false false false ++ strobed := by decide

theorem test_entryModeRight : events .entryModeRight true =
    settle false ++ d8 false true true false false false false false ++ strobed := by decide

theorem test_displayOff : events .displayOff true =
    settle false ++ d8 false false false true false false false false ++ strobed := by decide

theorem test_displayOnCursorOff : events .displayOnCursorOff true =
    settle false ++ d8 false false true true false false false false ++ strobed := by decide

theorem test_displayOnCursorSteady : events .displayOnCursorSteady true =
    settle false ++ d8 false true true true false false false false ++ strobed := by decide

theorem test_displayOnCursorBlink : events .displayOnCursorBlink true =
    settle false ++ d8 true true true true false false false false ++ strobed := by decide

/-- S1: 8-bit, 2 lines, 5x10 is 0x3C. -/
theorem test_functionSet : events (.functionSet true true true) true =
    settle false ++ d8 false false true true true true false false ++ strobed := by decide

/-- V5: 4-bit `Transmit(0, 0x33)`. -/
theorem test_force4A : events .force4A false =
    settle false ++ d4 true true false false ++ strobed ++ d4 true true false false ++ strobed := by
  decide

/-- V2: 0x32 is 0x3, 0x2. -/
theorem test_force4B : events .force4B false =
    settle false ++ d4 true true false false ++ strobed ++ d4 false true false false ++ strobed := by
  decide

theorem test_raw4Send : events (.raw4Send 0x28#8) false =
    settle false ++ d4 false true false false ++ strobed ++ d4 false false false true ++ strobed := by
  decide

/-- V5: 8-bit `Transmit(1, 0xFF)`. -/
theorem test_dataWrite : events (.dataWrite 0xFF#8) true =
    settle true ++ d8 true true true true true true true true ++ strobed := by decide

theorem test_sendCommand : events (.sendCommand 0x01#8) true =
    settle false ++ d8 true false false false false false false false ++ strobed := by decide

theorem test_sendData : events (.sendData 0x41#8) true =
    settle true ++ d8 true false false false false false true false ++ strobed := by decide

/-- V3: 0x5A. -/
theorem test_frame8 : events (.frame8 true 0x5A#8) true =
    d8 false true false true true false true false ++ strobed := by decide

/-- V4: 0xB. -/
theorem test_frame4 : events (.frame4 false 0xB#4) false = d4 true true false true ++ strobed := by
  decide

/-- V3: 0xA5. -/
theorem test_frame_8bit : events (.frame 0xA5#8) true =
    d8 true false true false false true false true ++ strobed := by decide

/-- V4: 0x6. -/
theorem test_driveData4 : events (.driveData4 0x6#4) false = d4 false true true false := by decide

/-- V3: 0x0C. -/
theorem test_driveData8 : events (.driveData8 0x0C#8) true =
    d8 false false true true false false false false := by decide

/-- V17: other legal parameters change only the delays. -/
theorem test_other_parameters : eventsOf (seqTransmit8 ⟨100, 10, 2, false⟩ false 0x06#8) =
    .delay 10 :: .setPin .rs false :: .setPin .rw false ::
      d8 false true true false false false false false ++
      [.setPin .e true, .delay 2, .setPin .e false] := by decide

/-! ## Single steps -/

/-- R154: the first event of SELECT is RS. -/
theorem test_select_step : emits (exec (.select true) (inside true (.select true) 0)) = some [.setPin .rs true] := rfl

/-- R159: the last event of PULSE is `E:0`, and the block is idle. -/
theorem test_pulse_last_step :
    seen (fun t => (t.trace, t.seq)) (exec .pulse (inside true .pulse 2)) =
      some ([.setPin .e false], .idle) := rfl

/-- R153: DELAY is one event. -/
theorem test_delay_step :
    seen (fun t => (t.trace, t.seq)) (exec (.delay 5) (inside true (.delay 5) 0)) =
    some ([.delay 5], .idle) := rfl

/-- R24: the acceptance is `pc <- (op, 0)`, no event, and takes the request off the port. -/
theorem test_acceptance_step :
    seen (fun t => (t.trace, t.seq, t.port)) (step (presented true (.request 0x200#12 []))) =
      some ([], .run .turnOff 0, []) := rfl

/-- R24: the step after the acceptance emits event 0. -/
theorem test_first_event_step :
    seen (fun t => (t.trace, t.seq)) (step (inside true .turnOff 0)) =
      some ([.delay 5], .run .turnOff 1) := rfl

/-- R24: event 3 of PUT_CHAR 0x41, 8-bit, is `D0:1`, and PIN follows. -/
theorem test_putChar_event_3 :
    seen (fun t => (t.trace, t.pins.d0, t.seq)) (exec (.putChar 0x41#8) (inside true (.putChar 0x41#8) 3)) =
      some ([.setPin (.d 0) true], true, .run (.putChar 0x41#8) 4) := rfl

/-- R222: the last event of INIT makes LIFE READY. -/
theorem test_init_last_step :
    seen (fun t => (t.life, t.seq))
      (exec .init { inside true .init 70 with life := .initialising }) = some (.ready, .idle) := rfl

/-- V11: the sentinel ends the string and is not sent. -/
theorem test_putString_end :
    seen (fun t => (t.seq, t.strpos, t.byte))
      (exec .putString { inside true .putString 13 with
        byte := 0x42#8, strpos := 1, str := Memory.ofBytes [0x41#8, 0x42#8, 0x00#8] }) =
      some (.idle, 2, 0x42#8) := rfl

/-- V11: fetch index 0 first; BYTE holds it; the acceptance emits nothing (R24). -/
theorem test_putString_first_fetch :
    seen (fun t => (t.byte, t.strpos, t.trace, t.seq))
      (exec .putString { ready false with str := Memory.ofBytes [0x48#8, 0x69#8, 0x00#8] }) =
      some (0x48#8, 0, [], .run .putString 0) := rfl

/-- V12: width 4 with 8 Data handles is `ConfigError(8, 4)`, code 1. -/
theorem test_construct_config_error :
    seen (fun t => (t.life, t.error, t.trace, t.seq)) (exec (.construct false true false) (assigned 8)) =
      some (.failed, some ⟨1, 8, 4⟩, [], .idle) := rfl

/-- V12: width 8 with 8 Data handles succeeds. -/
theorem test_construct_success :
    seen (fun t => (t.life, t.cfg, t.seq)) (exec (.construct true true false) (assigned 8)) =
      some (.initialising, ⟨true, true, false⟩, .run .init 0) := rfl

/-- P6: the reserved word 0x103 emits nothing and the block stays idle. -/
theorem test_refused_word_step :
    seen (fun t => (t.trace, t.seq, t.port)) (step (presented true (.request 0x103#12 []))) =
      some ([], .idle, []) := rfl

/-- V12: after FAILED a request emits nothing. -/
theorem test_failed_request_step :
    seen (fun t => (t.trace, t.life))
      (step { presented true (.request 0x441#12 []) with life := .failed }) =
      some ([], .failed) := rfl

/-! ## The abstraction functions (V15) -/

/-- V15, 4-bit. -/
theorem test_levels_4bit :
    levelB (levelW 4 Pins.reset
      (settle true ++ d4 false false true false ++ strobed ++ d4 true true false true ++ strobed)) =
      some [.tx true 0x4B#8] := by decide

/-- V15: the trace in another order has the same Level W. -/
theorem test_levels_order_independent :
    levelW 4 Pins.reset
      ([.delay 5, .setPin (.d 3) false, .setPin (.d 2) true, .setPin (.d 1) false,
        .setPin (.d 0) false, .setPin .rw false, .setPin .rs true] ++ strobed ++
       [.setPin (.d 0) true, .setPin (.d 3) true, .setPin (.d 1) true, .setPin (.d 2) false] ++
       strobed) =
      [.wait 5, .latch true false 4 0x4#8, .latch true false 4 0xB#8] := by decide

/-- S10: `(0x41 >> 6) & 1` is 1 and `(0x41 >> 1) & 1` is 0. -/
theorem test_bit_test : bit 0x41#8 6 = true ∧ bit 0x41#8 1 = false := by decide

/-! ## Memory -/

/-- Reset memory is in canonical form. -/
theorem test_reset_memory_wf : State.reset.str.wf := List.Pairwise.nil

/-- Writing an index keeps the order of the cells. -/
theorem test_memory_write : Memory.write [(1, 0x42#8)] 0 0x41#8 = [(0, 0x41#8), (1, 0x42#8)] := rfl

/-! ## Witnesses: for every obligation with hypotheses, values that meet them together -/

theorem witness_DecodeOfEncodeIsTheInstruction : Instr.wf (.delay 63) = true := rfl

theorem witness_EncodeOfDecodeIsTheWord : decode .req12 0x102 = .ok (.turnOn .blinkOff) := rfl

/-- The first reserved `op` above the used ones, the last, and the reserved cursor state. -/
theorem witness_ReservedRequestWordsAreRefused :
    (0x600#12).extractLsb' 8 4 = 0x6#4 ∧ (0xFFF#12).extractLsb' 8 4 = 0xF#4 ∧
    (0x103#12).extractLsb' 0 2 = 3#2 ∧ (0x4FF#12).extractLsb' 8 4 = 0x4#4 ∧
    (0x501#12).extractLsb' 8 4 = 0x5#4 ∧ (0x501#12).extractLsb' 0 8 ≠ 0x00#8 := by decide

theorem witness_StepRunsTheInstruction_running :
    (inside true .clear 5).seq = .run .clear 5 := rfl

theorem witness_StepRunsTheInstruction_request :
    (presented true (.request 0x441#12 [])).seq = .idle ∧
    (presented true (.request 0x441#12 [])).life = .ready ∧
    (presented true (.request 0x441#12 [])).port = .request 0x441#12 [] :: [] ∧
    Instr.isPublic (.putChar 0x41#8) = true ∧
    decode .req12 (0x441#12).toNat = .ok (.putChar 0x41#8) := ⟨rfl, rfl, rfl, rfl, rfl⟩

theorem witness_StepRunsTheInstruction_construct :
    (presented true (.construct 0b010#3 (Config.pins 4))).seq = .idle ∧
    (presented true (.construct 0b010#3 (Config.pins 4))).port =
      .construct 0b010#3 (Config.pins 4) :: [] ∧
    decode .cfg3 (0b010#3).toNat = .ok (.construct false true false) := ⟨rfl, rfl, rfl⟩

theorem witness_WhatIsNotAcceptedChangesNothing_refused :
    (presented true (.request 0xF00#12 [])).seq = .idle ∧
    (presented true (.request 0xF00#12 [])).port = .request 0xF00#12 [] :: [] ∧
    hostRequest 0xF00#12 = none := ⟨rfl, rfl, rfl⟩

theorem witness_WhatIsNotAcceptedChangesNothing_no_instance :
    State.unbuilt.seq = .idle ∧ State.unbuilt.life ≠ .ready ∧
    { State.unbuilt with port := [.request 0x300#12 []] }.port = .request 0x300#12 [] :: [] :=
  ⟨rfl, by decide, rfl⟩

theorem witness_PresentedItemsWaitWhileBusy :
    (inside true .clear 27).busy = true ∧ ∃ t, step (inside true .clear 27) = .next t :=
  ⟨rfl, _, rfl⟩

theorem witness_WhatIsNotAcceptedChangesNothing_release_and_empty :
    (ready true).seq = .idle ∧ (ready true).port = [] ∧
    (presented true .teardown).seq = .idle ∧ (presented true .teardown).port = .teardown :: [] :=
  ⟨rfl, rfl, rfl, rfl⟩

/-- A request, a frame on its bus width, and a string of one byte. -/
theorem witness_AcceptanceGoesToTheFirstPosition :
    (ready true).seq = .idle ∧ Instr.admittedIn .clear (ready true).life = true ∧
    (ready false).cfg.dl = false ∧ Instr.admittedIn (.frame4 true 0xF#4) (ready false).life = true ∧
    (ready true).life = .ready ∧ (∀ b ∈ [0x41#8], b ≠ 0x00#8) ∧ [0x41#8].head? = some 0x41#8 ∧
    { ready true with str := Memory.ofBytes [0x41#8, 0x00#8] }.str =
      Memory.ofBytes ([0x41#8] ++ 0x00#8 :: []) :=
  ⟨rfl, rfl, rfl, rfl, rfl, by decide, rfl, rfl⟩

/-- The last event of INIT, and an event that is not the last. -/
theorem witness_EventNumberKIsEmitted :
    (∃ m, (sequenceOf .init (inside true .init 70))[70]? = some m) ∧
    (∃ m, (sequenceOf (.frame4 true 0xF#4) (inside false (.frame4 true 0xF#4) 0))[0]? = some m) ∧
    (inside false (.frame4 true 0xF#4) 0).cfg.dl = false := ⟨⟨_, rfl⟩, ⟨_, rfl⟩, rfl⟩

theorem witness_ConstructBeginsTheInstance :
    (assigned 4).seq = .idle ∧ (assigned 4).pinsArg.data.length = (if false then 8 else 4) ∧
    ((assigned 4).pinsArg.rs :: (assigned 4).pinsArg.rw :: (assigned 4).pinsArg.e ::
      (assigned 4).pinsArg.data).Nodup ∧
    (assigned 8).pinsArg.data.length = (if true then 8 else 4) ∧
    ((assigned 8).pinsArg.rs :: (assigned 8).pinsArg.rw :: (assigned 8).pinsArg.e ::
      (assigned 8).pinsArg.data).Nodup := by decide

/-- V12: 9 and 7 handles on an 8-bit bus, 5 and 3 on a 4-bit bus. -/
theorem witness_MismatchedDataListTakesConfigError :
    (assigned 9).seq = .idle ∧ (assigned 9).pinsArg.data.length ≠ (if true then 8 else 4) ∧
    (assigned 7).pinsArg.data.length ≠ (if true then 8 else 4) ∧
    (assigned 5).pinsArg.data.length ≠ (if false then 8 else 4) ∧
    (assigned 3).pinsArg.data.length ≠ (if false then 8 else 4) := by decide

/-- 4 handles on an 8-bit bus (P5 has the reverse). -/
theorem witness_ConfigErrorIsRecorded :
    (assigned 4).seq = .idle ∧ (assigned 4).pinsArg.data.length ≠ (if true then 8 else 4) := by
  decide

/-- A Pin Assignment that gives RS and E one line. -/
def sharedPins : PinMap := { Config.pins 4 with e := (Config.pins 4).rs }

theorem witness_SharedHandlesAreRefused :
    sharedPins.data.length = (if false then 8 else 4) ∧
    ¬ (sharedPins.rs :: sharedPins.rw :: sharedPins.e :: sharedPins.data).Nodup := by decide

/-- A FAILED block with a request waiting. -/
def failedBlock : State := { presented true (.request 0x441#12 []) with life := .failed }

theorem witness_FailedIsTerminal :
    failedBlock.life = .failed ∧ failedBlock.seq = .idle ∧
    (∀ w pins, failedBlock.port.head? ≠ some (.construct w pins)) ∧
    ∃ t, step failedBlock = .next t :=
  ⟨rfl, rfl, (fun _ _ => by simp [failedBlock, presented]), _, rfl⟩

theorem witness_PowerOnSettleComesFirst :
    ∃ t, exec (.construct false true false) (assigned 4) = .next t ∧ t.life = .initialising :=
  ⟨_, rfl, rfl⟩

theorem witness_ConstructedInstanceBecomesReady :
    (assigned 8).par.legal = true ∧
    ∃ t, exec (.construct true true false) (assigned 8) = .next t ∧ t.life = .initialising :=
  ⟨rfl, _, rfl, rfl⟩

/-- INIT can start in both ways `CanStart` allows. -/
theorem witness_InitCompletes :
    CanStart .init State.reset ∧ CanStart .init { ready true with life := .initialising } :=
  ⟨.inl rfl, .inr ⟨rfl, rfl⟩⟩

theorem witness_TurnOnCompletes : CanStart (.turnOn .off) (ready true) := .inr ⟨rfl, rfl⟩

theorem witness_TurnOffCompletes : CanStart .turnOff (ready false) := .inr ⟨rfl, rfl⟩

theorem witness_ClearCompletes : CanStart .clear (ready true) := .inr ⟨rfl, rfl⟩

theorem witness_PutCharCompletes : CanStart (.putChar 0xFF#8) (ready false) := .inr ⟨rfl, rfl⟩

/-- V11: 0x41 0x00 0x42 0x00, whose second half is not sent. -/
theorem witness_PutStringCompletes :
    (ready true).seq = .idle ∧ (ready true).life = .ready ∧
    { ready true with str := Memory.ofBytes [0x41#8, 0x00#8, 0x42#8, 0x00#8] }.str =
      Memory.ofBytes ([0x41#8] ++ 0x00#8 :: [0x42#8, 0x00#8]) ∧
    (∀ b ∈ [0x41#8], b ≠ 0x00#8) ∧ [0x41#8].getLast? = some 0x41#8 :=
  ⟨rfl, rfl, rfl, by decide, rfl⟩

theorem witness_EmptyStringEmitsNothing :
    (ready true).seq = .idle ∧ (ready true).life = .ready ∧
    { ready true with str := Memory.ofBytes [0x00#8] }.str = Memory.ofBytes (0x00#8 :: []) :=
  ⟨rfl, rfl, rfl⟩

theorem witness_UnterminatedStringIsRefused :
    (ready true).seq = .idle ∧ (ready true).life = .ready ∧
    (∀ k, (Memory.ofBytes [0x41#8]).read k ≠ some 0x00#8) := by
  refine ⟨rfl, rfl, fun k => ?_⟩
  match k with
  | 0 => decide
  | k + 1 => simp

/-- Inside a byte, at its last event before a sentinel, and at its last event before another byte. -/
theorem witness_StringBytesAreFetchedLazily :
    (inside true .putString 12).seq = .run .putString 12 ∧ 12 + 1 < txCount true ∧
    13 + 1 = txCount true ∧ 16 + 1 = txCount false ∧
    (Memory.ofBytes [0x41#8, 0x00#8]).read (0 + 1) = some 0x00#8 ∧
    (Memory.ofBytes [0x41#8, 0x01#8, 0x00#8]).read (0 + 1) = some 0x01#8 ∧ 0x01#8 ≠ 0x00#8 := by
  decide

theorem witness_CommandWordsComplete :
    CanStart .clearDisplay (ready true) ∧ CanStart .returnHome (ready true) ∧
    CanStart .entryModeRight (ready true) ∧ CanStart .displayOff (ready true) ∧
    CanStart .displayOnCursorOff (ready true) ∧ CanStart .displayOnCursorSteady (ready true) ∧
    CanStart .displayOnCursorBlink (ready true) :=
  ⟨.inr ⟨rfl, rfl⟩, .inr ⟨rfl, rfl⟩, .inr ⟨rfl, rfl⟩, .inr ⟨rfl, rfl⟩, .inr ⟨rfl, rfl⟩,
    .inr ⟨rfl, rfl⟩, .inr ⟨rfl, rfl⟩⟩

theorem witness_FunctionSetCompletes : CanStart (.functionSet false true true) (ready false) :=
  .inr ⟨rfl, rfl⟩

theorem witness_RawFourBitPathCompletes :
    (ready false).cfg.dl = false ∧ CanStart .force4A (ready false) ∧ CanStart .force4B (ready false) ∧
    CanStart (.raw4Send 0x32#8) (ready false) :=
  ⟨rfl, .inr ⟨rfl, rfl⟩, .inr ⟨rfl, rfl⟩, .inr ⟨rfl, rfl⟩⟩

theorem witness_TransmitCompletes : CanStart (.transmit true 0xA5#8) (ready false) :=
  .inr ⟨rfl, rfl⟩

theorem witness_SendCommandAndSendDataComplete :
    CanStart (.sendCommand 0x01#8) (ready true) ∧ CanStart (.sendData 0x41#8) (ready true) ∧
    CanStart (.dataWrite 0x41#8) (ready true) :=
  ⟨.inr ⟨rfl, rfl⟩, .inr ⟨rfl, rfl⟩, .inr ⟨rfl, rfl⟩⟩

theorem witness_EightBitFramesComplete :
    (ready true).cfg.dl = true ∧ CanStart (.frame8 true 0x5A#8) (ready true) ∧
    CanStart (.frame 0x5A#8) (ready true) := ⟨rfl, .inr ⟨rfl, rfl⟩, .inr ⟨rfl, rfl⟩⟩

theorem witness_FourBitFrameCompletes :
    (ready false).cfg.dl = false ∧ CanStart (.frame4 true 0xB#4) (ready false) :=
  ⟨rfl, .inr ⟨rfl, rfl⟩⟩

theorem witness_FrameOnFourLinesCompletes :
    (ready false).cfg.dl = false ∧ CanStart (.frame 0xF6#8) (ready false) :=
  ⟨rfl, .inr ⟨rfl, rfl⟩⟩

theorem witness_DriveDataCompletes :
    (ready false).cfg.dl = false ∧ CanStart (.driveData4 0xF#4) (ready false) ∧
    (ready true).cfg.dl = true ∧ CanStart (.driveData8 0xFF#8) (ready true) :=
  ⟨rfl, .inr ⟨rfl, rfl⟩, rfl, .inr ⟨rfl, rfl⟩⟩

theorem witness_SelectCompletes : CanStart (.select true) (ready true) := .inr ⟨rfl, rfl⟩

theorem witness_PulseCompletes : CanStart .pulse (ready false) := .inr ⟨rfl, rfl⟩

theorem witness_DelayCompletes : CanStart (.delay 0) (ready true) := .inr ⟨rfl, rfl⟩

theorem witness_WrongBusWidthStops :
    (ready true).cfg.dl = true ∧ (ready false).cfg.dl = false := ⟨rfl, rfl⟩

theorem witness_NotAdmittedChangesNothing :
    (ready true).seq = .idle ∧ Instr.admittedIn .init (ready true).life = false ∧
    State.unbuilt.seq = .idle ∧ Instr.admittedIn (.frame8 true 0x00#8) State.unbuilt.life = false ∧
    State.unbuilt.cfg.dl = true := ⟨rfl, rfl, rfl, rfl, rfl⟩

theorem witness_InterleavedOperationIsRefused :
    Instr.clear ≠ .turnOff ∧ (inside true .clear 3).seq = .run .clear 3 ∧
    refusal (exec .turnOff (inside true .clear 3)) = some .operationInProgress :=
  ⟨by decide, rfl, rfl⟩

/-- A step that emits, and a step of PUT_STRING. -/
theorem witness_OneStepFrame :
    (∀ d n f, Instr.pulse ≠ .construct d n f) ∧ (∃ t, exec .pulse (inside true .pulse 0) = .next t) ∧
    (∀ d n f, Instr.putString ≠ .construct d n f) ∧
    ∃ t, exec .putString { inside true .putString 13 with
      str := Memory.ofBytes [0x41#8, 0x00#8] } = .next t :=
  ⟨(fun _ _ _ h => by cases h), ⟨_, rfl⟩, (fun _ _ _ h => by cases h), ⟨_, rfl⟩⟩

theorem witness_DelaysAreLowerBounds :
    (∀ d n f, Instr.delay 5 ≠ .construct d n f) ∧ ∃ t, exec (.delay 5) (inside true (.delay 5) 0) = .next t :=
  ⟨(fun _ _ _ h => by cases h), _, rfl⟩

/-- Two states that differ in PIN, the trace and the port. -/
theorem witness_EventsIgnorePinsAndHistory :
    (∀ d n f, Instr.clear ≠ .construct d n f) ∧
    { inside true .clear 4 with pins := { Pins.reset with d0 := true }, trace := [.delay 1] }.seq =
      (inside true .clear 4).seq ∧ ∃ t, exec .clear (inside true .clear 4) = .next t :=
  ⟨(fun _ _ _ h => by cases h), rfl, _, rfl⟩

/-- A step of an operation, and a step that begins a construction. -/
theorem witness_ConfigurationIsImmutable :
    (∃ t, step (inside true .clear 0) = .next t) ∧
    ∃ t, step (presented true (.construct 0b110#3 (Config.pins 8))) = .next t ∧
      t.seq = .run .init 0 := ⟨⟨_, rfl⟩, _, rfl, rfl⟩

theorem witness_EventsReachTheirOwnLines :
    (Config.pins 8).data.length = (if true then 8 else 4) ∧ (Config.pins 8).distinct = true ∧
    (Config.pins 4).data.length = (if false then 8 else 4) ∧ (Config.pins 4).distinct = true ∧
    (Config.pins 8).data[7]? = some ⟨1, 7⟩ := by decide

theorem witness_FrameYieldsItsLatch : Pins.reset.e = false := rfl

theorem witness_TransmissionsParseAtLevelB : { Pins.reset with rs := true }.e = false := rfl

theorem witness_InitAtLevelB : { Pins.reset with d7 := true }.e = false := rfl

theorem witness_CommandBytesAreInTheClosedSet :
    (Instr.isPublic .clear = true ∨ Instr.clear = .init) ∧
    (Instr.isPublic .init = true ∨ Instr.init = .init) ∧ Pins.reset.e = false :=
  ⟨.inl rfl, .inr rfl, rfl⟩

/-- Calls that include the empty string. -/
def someCalls : List HostCall := [.clear, .putString [], .putString [0x4F#8, 0x4B#8], .turnOff]

theorem witness_HostCallsAreEmittedInOrder :
    (ready false).seq = .idle ∧ (ready false).life = .ready ∧
    { ready false with port := someCalls.map HostCall.presented }.port =
      someCalls.map HostCall.presented ∧ ∀ c ∈ someCalls, c.wf := by
  refine ⟨rfl, rfl, rfl, ?_⟩
  simp [someCalls, HostCall.wf]

theorem witness_CursorCommandsAreStateless :
    (ready true).seq = .idle ∧ (ready true).life = .ready ∧
    { ready true with
      port := [.request 0x100#12 [], .request 0x200#12 [], .request 0x101#12 []] }.port =
      [.request 0x100#12 [], .request 0x200#12 [], .request 0x101#12 []] := ⟨rfl, rfl, rfl⟩

/-- An idle READY block whose host presents PUT_CHAR 0x41 has the invariant. -/
theorem ready_inv : BlockInv (presented true (.request 0x441#12 [])) where
  parLegal := rfl
  seqOk := by intro h; cases h
  charOk := by intro k h; cases h
  pinmapOk := by intro _; exact ⟨rfl, rfl⟩
  noInstance := by intro _; rfl
  strOk := List.Pairwise.nil
  portOk := by intro x h; rw [List.mem_singleton.1 h]; exact List.Pairwise.nil
  quietOk := rfl
  heldOk := rfl
  settledOk := rfl
  enableOk := rfl
  pinE := rfl
  rwOk := rfl
  linesOk := rfl

theorem witness_StepKeepsInv : BlockInv (presented true (.request 0x441#12 [])) ∧
    ∃ t, step (presented true (.request 0x441#12 [])) = .next t ∧ t.seq = .run (.putChar 0x41#8) 0 :=
  ⟨ready_inv, _, rfl, rfl⟩

/-- A construction, a string and a reserved word, from before construction and from reset. -/
def somePort : List Presented :=
  [.construct 0b110#3 (Config.pins 8), .request 0x500#12 (Memory.ofBytes [0x41#8, 0x00#8]),
   .request 0x103#12 [], .teardown]

theorem witness_ReachableStatesHaveInv :
    (∀ x ∈ somePort, x.wf) ∧ (∃ u, run 3 { State.unbuilt with port := somePort } = .next u) ∧
    ∃ u, run 3 { State.reset with port := somePort } = .next u := by
  refine ⟨?_, ⟨_, rfl⟩, _, rfl⟩
  simp [somePort, Presented.wf, Memory.wf, Memory.ofBytes, Memory.ofBytesFrom]

theorem witness_TracesKeepTheProtocol : BlockInv (presented true (.request 0x441#12 [])) ∧
    (presented true (.request 0x441#12 [])).seq = .idle := ⟨ready_inv, rfl⟩

end Sys2Proof.Tests
end

section
/-! PROOFS. The elapsed time of one step: a step emits at most one event, and the time that passes is not less than the event asks for (R14, R29, R63). -/

namespace Sys2Proof.Machine

/-- The instructions are the sequences of events, CONSTRUCT and PUT_STRING. -/
theorem isSequence_or_putString {i : Instr} (hi : ∀ d n f, i ≠ .construct d n f) :
    isSequence i = true ∨ i = .putString := by
  cases i with
  | construct d n f => exact absurd rfl (hi d n f)
  | putString => exact .inr rfl
  | _ => exact .inl rfl

/-- A step of a sequence leaves TRACE and TIME as they are (nothing done, or the acceptance), or they are those after one event (R24). -/
theorem exec_sequence_trace_time {i : Instr} {s t : State} (hi : isSequence i = true)
    (h : exec i s = .next t) :
    (t.trace = s.trace ∧ t.time = s.time) ∨
    ∃ m, t.trace = (emit m s).trace ∧ t.time = (emit m s).time := by
  obtain ⟨-, -, -, rfl⟩ | ⟨-, -, -, rfl⟩ | ⟨k, m, -, -, -, hev⟩ := exec_next_cases hi h
  · exact .inl ⟨rfl, rfl⟩
  · exact .inl ⟨rfl, rfl⟩
  · refine .inr ⟨m, ?_⟩
    obtain ⟨-, rfl⟩ | ⟨-, rfl⟩ := hev <;> exact ⟨rfl, rfl⟩

/-- A step of PUT_STRING leaves TRACE and TIME as they are (nothing done, the empty string, or the first fetch), or they are those after one event; the fetch that follows a byte's last event adds nothing (R181, R182). -/
theorem exec_putString_trace_time {s t : State} (h : exec .putString s = .next t) :
    (t.trace = s.trace ∧ t.time = s.time) ∨
    ∃ m, t.trace = (emit m s).trace ∧ t.time = (emit m s).time := by
  obtain ⟨-, -, rfl⟩ | ⟨-, -, -, rfl⟩ | ⟨c, -, -, -, -, -, rfl⟩ | ⟨k, m, -, -, hev⟩ :=
    exec_putString_cases h
  · exact .inl ⟨rfl, rfl⟩
  · exact .inl ⟨rfl, rfl⟩
  · exact .inl ⟨rfl, rfl⟩
  · refine .inr ⟨m, ?_⟩
    obtain ⟨-, rfl⟩ | ⟨-, -, rfl⟩ | ⟨-, c, -, -, rfl⟩ := hev <;> exact ⟨rfl, rfl⟩

/-- Every instruction but CONSTRUCT leaves TRACE and TIME as they are in one step, or they are those after one event. -/
theorem exec_trace_time {i : Instr} {s t : State} (hi : ∀ d n f, i ≠ .construct d n f)
    (h : exec i s = .next t) :
    (t.trace = s.trace ∧ t.time = s.time) ∨
    ∃ m, t.trace = (emit m s).trace ∧ t.time = (emit m s).time := by
  obtain hseq | rfl := isSequence_or_putString hi
  · exact exec_sequence_trace_time hseq h
  · exact exec_putString_trace_time h

/-- Settles O46: a step emits no event and takes no time, or it emits one event and takes that event's elapsed time, which no free value makes less than the event asks for. -/
theorem delaysAreLowerBounds : Obligations.DelaysAreLowerBounds := by
  unfold Obligations.DelaysAreLowerBounds
  intro i s t hi h
  obtain ⟨htrace, htime⟩ | ⟨m, htrace, htime⟩ := exec_trace_time hi h
  · exact ⟨[], by simp [htrace], by simp [htime]⟩
  · have hle := le_elapsed m.ev.leastTime s.draws
    exact ⟨[m.ev], htrace, by simpa [htime] using hle⟩

end Sys2Proof.Machine
end

section
/-! PROOFS. What one execution of an instruction does, said forward: for every sequence of events once, and for PUT_STRING by its positions (R24, R181, R182, R203). -/

namespace Sys2Proof.Machine

/-- The meaning of every instruction but CONSTRUCT and PUT_STRING, at the bus width its frames need, is the shared sequencing operation over its own events (R24). -/
theorem exec_eq_runOp {i : Instr} {s : State} (hi : isSequence i = true) (hw : widthFits i s) :
    exec i s = runOp i (sequenceOf i s) (Instr.admittedIn i s.life) (doneOf i) s := by
  obtain ⟨h4, h8⟩ := hw
  cases i with
  | construct d n f => simp [isSequence] at hi
  | putString => simp [isSequence] at hi
  | force4A => simp only [exec, execForce4A, h4 rfl]; rfl
  | force4B => simp only [exec, execForce4B, h4 rfl]; rfl
  | raw4Send v => simp only [exec, execRaw4Send, h4 rfl]; rfl
  | frame4 rs v => simp only [exec, execFrame4, h4 rfl]; rfl
  | driveData4 v => simp only [exec, execDriveData4, h4 rfl]; rfl
  | frame8 rs v => simp only [exec, execFrame8, h8 rfl]; rfl
  | driveData8 v => simp only [exec, execDriveData8, h8 rfl]; rfl
  | _ => rfl

/-- With SEQ = IDLE in a lifecycle that does not admit it, a sequence does nothing (R203). -/
theorem exec_not_admitted {i : Instr} {s : State} (hi : isSequence i = true) (hw : widthFits i s)
    (hs : s.seq = .idle) (ha : Instr.admittedIn i s.life = false) : exec i s = .next s := by
  rw [exec_eq_runOp hi hw, runOp, hs, ha]
  rfl

/-- An instruction that is neither CONSTRUCT nor PUT_STRING is a sequence of events. -/
theorem isSequence_of_ne {i : Instr} (hc : ∀ d n f, i ≠ .construct d n f) (hp : i ≠ .putString) :
    isSequence i = true :=
  (isSequence_or_putString hc).resolve_right hp

/-- What follows the last event of an operation: SEQ is IDLE, and after INIT the lifecycle is READY (R110, R222). -/
theorem doneOf_eq (i : Instr) (s : State) :
    doneOf i s = .next { s with seq := .idle, life := if i = .init then .ready else s.life } := by
  cases i <;> rfl

/-- With SEQ = (i, k) a sequence emits its event `k` and goes to (i, k+1), or to IDLE after the last (R24). -/
theorem exec_emits {i : Instr} {s : State} {k : Nat} {m : Micro} (hi : isSequence i = true)
    (hw : widthFits i s) (hs : s.seq = .run i k) (hm : (sequenceOf i s)[k]? = some m) :
    exec i s = .next { emit m s with
      seq := if k + 1 < (sequenceOf i s).length then .run i (k + 1) else .idle
      life := if i = .init ∧ k + 1 = (sequenceOf i s).length then .ready else s.life } := by
  obtain ⟨hk, hget⟩ := List.getElem?_eq_some_iff.1 hm
  rw [exec_running hi hw hs]
  by_cases hlt : k + 1 < (sequenceOf i s).length
  · rw [advance_of_lt hlt, hget]
    simp [hlt, hlt.ne, emit]
  · have hlast : k + 1 = (sequenceOf i s).length := by omega
    rw [advance_of_last hlast, hget, doneOf_eq]
    simp [hlast]

/-! ## PUT_STRING -/

/-- The fetch of a sentinel ends the operation (R181). -/
theorem fetchChar_sentinel {send : State → Host.Outcome State Fault Refusal} {s : State}
    (h : s.str.read s.strpos = some Config.sentinel) :
    fetchChar send s = .next { s with seq := .idle } := by
  simp [fetchChar, h, toIdle]

/-- The fetch of any other byte holds it in BYTE and goes on with it (R181, R62). -/
theorem fetchChar_char {send : State → Host.Outcome State Fault Refusal} {s : State} {c : Byte}
    (h : s.str.read s.strpos = some c) (hc : c ≠ Config.sentinel) :
    fetchChar send s = send { s with byte := c } := by
  simp [fetchChar, h, hc]

/-- Outside READY an idle PUT_STRING does nothing (R88, R203). -/
theorem exec_putString_not_ready {s : State} (hs : s.seq = .idle) (hl : s.life ≠ .ready) :
    exec .putString s = .next s := by
  simp [exec, execPutString, hs, State.isReady, hl]

/-- The acceptance of PUT_STRING for an operand with a sentinel: the fetch of byte 0 (R181). -/
theorem exec_putString_begins {s : State} (hs : s.seq = .idle) (hl : s.life = .ready)
    (hn : s.str.stringLength.isSome = true) :
    exec .putString s = fetchChar toNextChar { s with strpos := 0 } := by
  obtain ⟨n, hn⟩ := Option.isSome_iff_exists.1 hn
  simp [exec, execPutString, hs, State.isReady, hl, beginString, hn]

/-- An operand whose byte 0 is the sentinel has a length, 0 (R181). -/
theorem Memory.stringLength_isSome_of_empty {m : Memory} (h : m.read 0 = some Config.sentinel) :
    m.stringLength.isSome = true := by
  simp [Memory.stringLength, Memory.sentinelFrom, h]

/-- An event of PUT_STRING before a byte's last one (R24). -/
theorem exec_putString_emits {s : State} {k : Nat} {m : Micro} (hs : s.seq = .run .putString k)
    (hm : (seqSendData s.par s.cfg.dl s.byte)[k]? = some m) (hk : k + 1 < txCount s.cfg.dl) :
    exec .putString s = .next { emit m s with seq := .run .putString (k + 1) } := by
  obtain ⟨_, hget⟩ := List.getElem?_eq_some_iff.1 hm
  rw [exec_putString_running hs, advanceChar, advance_of_lt (by simpa using hk), hget]

/-- A byte's last event, and the fetch of the byte after it (R181, R182). -/
theorem exec_putString_ends_char {s : State} {k : Nat} {m : Micro} (hs : s.seq = .run .putString k)
    (hm : (seqSendData s.par s.cfg.dl s.byte)[k]? = some m) (hk : k + 1 = txCount s.cfg.dl) :
    exec .putString s = fetchChar toNextChar { emit m s with strpos := s.strpos + 1 } := by
  obtain ⟨_, hget⟩ := List.getElem?_eq_some_iff.1 hm
  rw [exec_putString_running hs, advanceChar, advance_of_last (by simpa using hk), hget]
  rfl

/-! ## What the host presents to an idle block -/

/-- A request word that decodes to a public operation names that operation (R90). -/
theorem hostRequest_eq_some {w : BitVec 12} {i : Instr} (hd : decode .req12 w.toNat = .ok i)
    (hi : i.isPublic = true) : hostRequest w = some i := by
  simp [hostRequest, hd, hi]

/-- An idle, READY block runs the operation the next request names (R88). -/
theorem step_request {s : State} {w : BitVec 12} {m : Memory} {rest : List Presented} {i : Instr}
    (hs : s.seq = .idle) (hl : s.life = .ready) (hp : s.port = .request w m :: rest)
    (hr : hostRequest w = some i) : step s = exec i { s with port := rest, str := m } := by
  simp [step, fetch, takePresented, hs, hp, hr, State.isReady, hl]

/-- An idle block runs the construction presented next, in every lifecycle (R110, R225). -/
theorem step_construct {s : State} {w : BitVec 3} {pins : PinMap} {rest : List Presented}
    {i : Instr} (hs : s.seq = .idle) (hp : s.port = .construct w pins :: rest)
    (hw : constructWord w = some i) : step s = exec i { s with port := rest, pinsArg := pins } := by
  simp [step, fetch, takePresented, hs, hp, hw]

/-- Settles O7: the operation in SEQ, the operation of the next request, or the construction presented next. -/
theorem stepRunsTheInstruction : Obligations.StepRunsTheInstruction := by
  unfold Obligations.StepRunsTheInstruction
  refine ⟨fun s i k hs => step_running hs, ?_, ?_⟩
  · intro s i w m rest hs hl hp hi hd
    exact step_request hs hl hp (hostRequest_eq_some hd hi)
  · intro s i w pins rest hs hp hd
    exact step_construct hs hp (by simp [constructWord, hd])

/-- Settles O10: a sequence by the sequencing operation, PUT_STRING by the fetch of byte 0. -/
theorem acceptanceGoesToTheFirstPosition : Obligations.AcceptanceGoesToTheFirstPosition := by
  unfold Obligations.AcceptanceGoesToTheFirstPosition
  refine ⟨?_, ?_⟩
  · intro i s hc hp h4 h8 hs ha
    exact exec_accepts (isSequence_of_ne hc hp) ⟨h4, h8⟩ hs ha
  · intro s bytes junk c hs hl hstr hbytes hhead
    obtain ⟨rest, rfl⟩ := List.head?_eq_some_iff.1 hhead
    have hlen : s.str.stringLength.isSome = true := by
      rw [hstr]
      exact Option.isSome_of_eq_some (Memory.stringLength_ofBytes (c :: rest) junk hbytes)
    have hread : s.str.read 0 = some c := by simp [hstr]
    have hc : c ≠ Config.sentinel := hbytes c List.mem_cons_self
    rw [exec_putString_begins hs hl hlen, fetchChar_char hread hc]
    rfl

/-- Settles O11: one event of the sequence, by the sequencing operation. -/
theorem eventNumberKIsEmitted : Obligations.EventNumberKIsEmitted := by
  unfold Obligations.EventNumberKIsEmitted
  intro i s k m hc hp h4 h8 hs hm
  exact exec_emits (isSequence_of_ne hc hp) ⟨h4, h8⟩ hs hm

/-- Settles O12: both bits are decided by their defining conditions. -/
theorem statusBits : Obligations.StatusBits := by
  unfold Obligations.StatusBits
  intro s
  exact ⟨decide_eq_true_iff, decide_eq_true_iff⟩

/-- Settles O13: each value stands in the state after reset. -/
theorem resetValues : Obligations.ResetValues := by
  unfold Obligations.ResetValues
  exact ⟨rfl, rfl, rfl, rfl, rfl, rfl, rfl, rfl, rfl, rfl⟩

/-- Settles O17: the length test passes, so the test of the handles refuses. -/
theorem sharedHandlesAreRefused : Obligations.SharedHandlesAreRefused := by
  unfold Obligations.SharedHandlesAreRefused
  intro d n f s hs hlen hshared
  have hd : s.pinsArg.distinct = false := decide_eq_false hshared
  have hw : s.pinsArg.data.length = widthOf d := hlen
  simp [exec, execConstruct, hs, hw, hd]

end Sys2Proof.Machine
end

section
/-! PROOFS. The protocol of a trace as one predicate, kept when transmissions are appended, and the events of the operations as lists of transmissions (R152, R163, R231, R232). -/

namespace Sys2Proof.Machine

/-- The protocol of a whole trace, as the invariant states it: `w` is RW_WRITE and `n` the number of Data lines (R23, R51, R163, R231, R232). -/
structure TraceOk (w : Level) (n : Nat) (es : List Event) : Prop where
  quiet : quiet false es = true
  held : strobesHeld 1 es = true
  settled : settled 5 0 es = true
  enable : enableAfter false es = false
  rwWrite : rwAlwaysWrite w es = true
  lines : linesExist n es = true

theorem TraceOk.nil (w : Level) (n : Nat) : TraceOk w n [] := ⟨rfl, rfl, rfl, rfl, rfl, rfl⟩

/-- The protocol is kept when a list that keeps it and begins with a delay follows. -/
theorem TraceOk.append {w : Level} {n m : Nat} {a b : List Event} (ha : TraceOk w n a)
    (hb : TraceOk w n (.delay m :: b)) : TraceOk w n (a ++ .delay m :: b) where
  quiet := by rw [quiet_append, ha.quiet, ha.enable, hb.quiet]; rfl
  held := strobesHeld_append 1 a _ ha.held hb.held
  settled := by rw [settled_append_delay, ha.settled]; exact hb.settled
  enable := by rw [enableAfter_append, ha.enable, hb.enable]
  rwWrite := by rw [rwAlwaysWrite_append, ha.rwWrite, hb.rwWrite]; rfl
  lines := by rw [linesExist_append, ha.lines, hb.lines]; rfl

/-- The least values of the delays (R10). -/
theorem Params.legal_iff (p : Params) :
    p.legal = true ↔ 50 ≤ p.tPowerOn ∧ 5 ≤ p.tSettle ∧ 1 ≤ p.tPulse := by
  simp [Params.legal, and_assoc]

/-- A transmission begins with the settle delay (R152). -/
theorem txEvents_eq_delay_cons (p : Params) (dl : Bool) (rs : Level) (b : Byte) :
    txEvents p dl rs b = .delay p.tSettle :: (txEvents p dl rs b).tail := by
  cases dl <;> rfl

/-- With legal delays one transmission keeps the protocol (R152, R163, R231, R232). -/
theorem traceOk_tx {p : Params} (hp : p.legal = true) (dl : Bool) (rs : Level) (b : Byte) :
    TraceOk p.rwWrite (widthOf dl) (txEvents p dl rs b) := by
  obtain ⟨-, hsettle, hpulse⟩ := (Params.legal_iff p).1 hp
  cases dl with
  | false =>
    exact ⟨rfl, by simp [txEvents, tx4, strobesHeld, hpulse],
      by simp [txEvents, tx4, settled, hsettle], rfl,
      by simp [txEvents, tx4, rwAlwaysWrite], rfl⟩
  | true =>
    exact ⟨rfl, by simp [txEvents, tx8, strobesHeld, hpulse],
      by simp [txEvents, tx8, settled, hsettle], rfl,
      by simp [txEvents, tx8, rwAlwaysWrite], rfl⟩

/-- The protocol is kept when transmissions follow. -/
theorem TraceOk.append_txs {p : Params} (hp : p.legal = true) {dl : Bool} {a : List Event}
    (ha : TraceOk p.rwWrite (widthOf dl) a) (l : List (Level × Byte)) :
    TraceOk p.rwWrite (widthOf dl) (a ++ txsEvents p dl l) := by
  induction l generalizing a with
  | nil => simpa [txsEvents] using ha
  | cons x l ih =>
    have hx : TraceOk p.rwWrite (widthOf dl) (a ++ txEvents p dl x.1 x.2) := by
      have htx := traceOk_tx hp dl x.1 x.2
      rw [txEvents_eq_delay_cons] at htx ⊢
      exact ha.append htx
    rw [txsEvents_cons, ← List.append_assoc]
    exact ih hx

/-- INIT is the power-on settle and a list of command transmissions (R111). -/
theorem initEvents_eq (p : Params) (c : Cfg) :
    initEvents p c = [.delay p.tPowerOn] ++ txsEvents p c.dl ((initBytes c).map (false, ·)) := by
  simp [initEvents, txsEvents, List.flatMap_map]

/-- With legal delays INIT keeps the protocol. -/
theorem traceOk_init {p : Params} (hp : p.legal = true) (c : Cfg) :
    TraceOk p.rwWrite (widthOf c.dl) (initEvents p c) := by
  rw [initEvents_eq]
  exact TraceOk.append_txs hp ⟨rfl, rfl, rfl, rfl, rfl, rfl⟩ _

/-- Every public operation emits a list of transmissions, at least one: PUT_STRING, byte by byte, the one in BYTE (R130, R134, R140, R180, R182). -/
theorem events_of_public {i : Instr} (hi : i.isPublic = true) (s : State) :
    ∃ x l, eventsOf (sequenceOf i s) = txsEvents s.par s.cfg.dl (x :: l) := by
  cases i with
  | turnOn cs => exact ⟨(false, dc cs), [], by
      simp [sequenceOf, seqTurnOn, seqSendCommand, txsEvents, Config.rsCommand]⟩
  | turnOff => exact ⟨(false, 0x08#8), [], by
      simp [sequenceOf, seqSendCommand, txsEvents, Config.rsCommand]⟩
  | clear => exact ⟨(false, 0x01#8), [(false, 0x02#8)], by
      simp [sequenceOf, seqClear, seqSendCommand, txsEvents, Config.rsCommand]⟩
  | putChar b => exact ⟨(true, b), [], by
      simp [sequenceOf, seqSendData, txsEvents, Config.rsData]⟩
  | putString => exact ⟨(true, s.byte), [], by
      simp [sequenceOf, seqSendData, txsEvents, Config.rsData]⟩
  | _ => simp [Instr.isPublic] at hi

/-- A public operation has an event to emit. -/
theorem sequenceOf_public_pos {i : Instr} (hi : i.isPublic = true) (s : State) :
    0 < (sequenceOf i s).length := by
  obtain ⟨x, l, hev⟩ := events_of_public hi s
  have hpos := one_lt_txCount s.cfg.dl
  rw [← length_eventsOf, hev, txsEvents_cons, List.length_append, length_txEvents]
  omega

/-- A lifecycle that admits a public operation is READY (R27, R88). -/
theorem ready_of_admitted {i : Instr} {l : Life} (hi : i.isPublic = true)
    (ha : Instr.admittedIn i l = true) : l = .ready := by
  cases i with
  | turnOn _ | turnOff | clear | putChar _ | putString => exact of_decide_eq_true ha
  | _ => simp [Instr.isPublic] at hi

/-- What runs as an operation of the block is no CONSTRUCT (R24). -/
theorem ne_construct_of_operation {i : Instr} (hi : i = .init ∨ i.isPublic = true) :
    ∀ d n f, i ≠ .construct d n f := by
  rintro d n f rfl
  simp [Instr.isPublic] at hi

/-- What a sequence is does not depend on SEQ (R20). -/
theorem sequenceOf_withSeq (i : Instr) (q : Seq) (s : State) :
    sequenceOf i { s with seq := q } = sequenceOf i s := by
  cases i <;> rfl

/-- Emitting an event of an operation leaves the operation's events as they are: those of PUT_STRING follow BYTE, which keeps its byte (R20, R25, R182). -/
theorem sequenceOf_emit {i : Instr} {s : State} {m : Micro} (hm : m ∈ sequenceOf i s) :
    sequenceOf i (emit m s) = sequenceOf i s := by
  cases i with
  | construct d n f => rfl
  | putString => simp only [sequenceOf, emit_par, emit_cfg, emit_sendData_byte hm]
  | _ => exact sequenceOf_congr rfl rfl rfl

end Sys2Proof.Machine
end

section
/-! PROOFS. The invariant of the block: what each kind of step does to it, and that every step keeps it (R24, R27, R163, R231, R232). -/

namespace Sys2Proof.Machine

/-! ## The trace with what is still to be emitted -/

theorem fullTrace_idle {s : State} (hs : s.seq = .idle) : fullTrace s = s.trace := by
  simp [fullTrace, remaining, hs]

theorem fullTrace_running {s : State} {i : Instr} {k : Nat} (hs : s.seq = .run i k) :
    fullTrace s = s.trace ++ eventsOf ((sequenceOf i s).drop k) := by
  simp [fullTrace, remaining, hs]

/-- Before event `k` the whole trace is the events so far, that event, and the rest. -/
theorem fullTrace_at_event {s : State} {i : Instr} {k : Nat} {m : Micro} (hs : s.seq = .run i k)
    (hm : (sequenceOf i s)[k]? = some m) :
    fullTrace s = (s.trace ++ [m.ev]) ++ eventsOf ((sequenceOf i s).drop (k + 1)) := by
  obtain ⟨hk, rfl⟩ := List.getElem?_eq_some_iff.1 hm
  rw [fullTrace_running hs, List.drop_eq_getElem_cons hk]
  simp only [eventsOf, List.map_cons, List.append_assoc, List.singleton_append]

/-- An event drives Enable to the level Enable has after it (R23). -/
theorem drive_e (e : Event) (p : Pins) : (e.drive p).e = enableAfter p.e [e] := by
  cases e with
  | delay n => rfl
  | setPin s v =>
    cases s with
    | d i => fin_cases i <;> rfl
    | _ => rfl

/-! ## The parts of the invariant -/

theorem BlockInv.traceOk {s : State} (h : BlockInv s) :
    TraceOk s.par.rwWrite s.width (fullTrace s) :=
  ⟨h.quietOk, h.heldOk, h.settledOk, h.enableOk, h.rwOk, h.linesOk⟩

/-- The invariant from its part about the trace and the parts about SEQ, LIFE and the host's side. -/
theorem BlockInv.of_traceOk {s : State} (hpar : s.par.legal = true) (hseq : Machine.seqOk s)
    (hchar : Machine.charOk s)
    (hpinmap : s.life = .initialising ∨ s.life = .ready →
      s.pinmap.data.length = s.width ∧ s.pinmap.distinct = true)
    (hnone : s.life = .failed ∨ s.life = .unbuilt → s.trace = [])
    (hstr : Memory.wf s.str) (hport : ∀ x ∈ s.port, x.wf)
    (hpinE : s.pins.e = enableAfter false s.trace)
    (htrace : TraceOk s.par.rwWrite s.width (fullTrace s)) : BlockInv s :=
  ⟨hpar, hseq, hchar, hpinmap, hnone, hstr, hport, htrace.quiet, htrace.held, htrace.settled,
    htrace.enable, hpinE, htrace.rwWrite, htrace.lines⟩

/-- With SEQ = (i, k), event `k` exists, and the operation is INIT in INITIALISING or a public one in READY. -/
theorem BlockInv.running {s : State} {i : Instr} {k : Nat} (h : BlockInv s)
    (hs : s.seq = .run i k) :
    k < (sequenceOf i s).length ∧
      ((i = .init ∧ s.life = .initialising) ∨ (i.isPublic = true ∧ s.life = .ready)) := by
  simpa [Machine.seqOk, hs] using h.seqOk

/-- While an operation runs the block is INITIALISING or READY. -/
theorem BlockInv.built {s : State} {i : Instr} {k : Nat} (h : BlockInv s) (hs : s.seq = .run i k) :
    s.life = .initialising ∨ s.life = .ready :=
  (h.running hs).2.imp And.right And.right

/-- Idle, Enable is 0 (R164). -/
theorem BlockInv.enable_idle {s : State} (h : BlockInv s) (hs : s.seq = .idle) :
    s.pins.e = false := by
  rw [h.pinE, ← fullTrace_idle hs, h.enableOk]

/-! ## What the host does -/

/-- Other well-formed items at the port leave the invariant. -/
theorem BlockInv.with_port {s : State} {port : List Presented} (h : BlockInv s)
    (hport : ∀ x ∈ port, x.wf) : BlockInv { s with port := port } :=
  { h with portOk := hport }

/-- An idle block keeps the invariant with any well-formed host's side and any STRPOS: only an operation in progress reads them. -/
theorem BlockInv.with_host {s : State} {port : List Presented} {pins : PinMap} {m : Memory}
    {p : Nat} (h : BlockInv s) (hs : s.seq = .idle) (hport : ∀ x ∈ port, x.wf) (hm : m.wf) :
    BlockInv { s with port := port, pinsArg := pins, str := m, strpos := p } := by
  let t : State := { s with port := port, pinsArg := pins, str := m, strpos := p }
  show BlockInv t
  have hfull : fullTrace t = fullTrace s := by
    rw [fullTrace_idle hs, fullTrace_idle (s := t) hs]
  refine .of_traceOk h.parLegal ?_ ?_ h.pinmapOk h.noInstance hm hport h.pinE
    (by rw [hfull]; exact h.traceOk)
  · simpa [Machine.seqOk, t, hs] using h.seqOk
  · intro k hk
    exact absurd (hs.symm.trans hk) Seq.noConfusion

/-! ## What the block does -/

/-- The acceptance of a public operation, and the fetch of a byte PUT_STRING goes on with (R24, R181). -/
theorem BlockInv.accepts {s : State} {i : Instr} {p : Nat} {c : Byte} (h : BlockInv s)
    (hs : s.seq = .idle) (hl : s.life = .ready) (hi : i.isPublic = true)
    (hc : i = .putString → s.str.read p = some c ∧ c ≠ Config.sentinel) :
    BlockInv { s with strpos := p, byte := c, seq := .run i 0 } := by
  let t : State := { s with strpos := p, byte := c, seq := .run i 0 }
  show BlockInv t
  obtain ⟨x, l, hev⟩ := events_of_public hi t
  have hfull : fullTrace t = fullTrace s ++ txsEvents s.par s.cfg.dl (x :: l) := by
    rw [fullTrace_idle hs, fullTrace_running (s := t) rfl, List.drop_zero, hev]
  refine .of_traceOk h.parLegal ?_ ?_ h.pinmapOk h.noInstance h.strOk h.portOk h.pinE ?_
  · exact ⟨sequenceOf_public_pos hi t, .inr ⟨hi, hl⟩⟩
  · intro k hk
    injection hk with hk
    exact hc hk
  · rw [hfull]
    exact h.traceOk.append_txs h.parLegal (x :: l)

/-- Enable is the level it was last driven to after one more event as well (R23). -/
theorem BlockInv.pinE_emit {s : State} (h : BlockInv s) (m : Micro) :
    (emit m s).pins.e = enableAfter false (emit m s).trace := by
  rw [emit_pins, emit_trace, drive_e, enableAfter_append, h.pinE]

/-- An event that is not the last of its operation (R24). -/
theorem BlockInv.emits {s : State} {i : Instr} {k : Nat} {m : Micro} (h : BlockInv s)
    (hs : s.seq = .run i k) (hm : (sequenceOf i s)[k]? = some m)
    (hk : k + 1 < (sequenceOf i s).length) :
    BlockInv { emit m s with seq := .run i (k + 1) } := by
  let t : State := { emit m s with seq := .run i (k + 1) }
  show BlockInv t
  have hmem : m ∈ sequenceOf i s := List.mem_of_getElem? hm
  have hsame : sequenceOf i t = sequenceOf i s :=
    (sequenceOf_withSeq i _ _).trans (sequenceOf_emit hmem)
  have hfull : fullTrace t = fullTrace s := by
    rw [fullTrace_at_event hs hm, fullTrace_running (s := t) rfl, hsame]
    rfl
  refine .of_traceOk h.parLegal ?_ ?_ h.pinmapOk ?_ h.strOk h.portOk (h.pinE_emit m)
    (by rw [hfull]; exact h.traceOk)
  · exact ⟨by rw [hsame]; exact hk, (h.running hs).2⟩
  · intro j hj
    injection hj with hi
    subst hi
    have hbyte : t.byte = s.byte := emit_sendData_byte hmem
    rw [hbyte]
    exact h.charOk k hs
  · intro hno
    obtain hl | hl := h.built hs <;> simp [t, hl] at hno

/-- The last event of an operation, or of a byte of PUT_STRING: the block is idle and READY (R8, R110, R222). -/
theorem BlockInv.emits_last {s : State} {i : Instr} {k p : Nat} {m : Micro} {l : Life}
    (h : BlockInv s) (hs : s.seq = .run i k) (hm : (sequenceOf i s)[k]? = some m)
    (hk : k + 1 = (sequenceOf i s).length) (hl : l = .ready) :
    BlockInv { emit m s with strpos := p, seq := .idle, life := l } := by
  subst hl
  let t : State := { emit m s with strpos := p, seq := .idle, life := .ready }
  show BlockInv t
  have hfull : fullTrace t = fullTrace s := by
    rw [fullTrace_at_event hs hm, fullTrace_idle (s := t) rfl, hk, List.drop_length]
    simp [t]
  refine .of_traceOk h.parLegal ?_ ?_ ?_ ?_ h.strOk h.portOk (h.pinE_emit m)
    (by rw [hfull]; exact h.traceOk)
  · exact Life.noConfusion
  · intro j hj
    exact Seq.noConfusion hj
  · intro _
    exact h.pinmapOk (h.built hs)
  · intro hno
    exact hno.elim Life.noConfusion Life.noConfusion

/-- Taking ConfigError leaves a FAILED block with an empty trace (R195). -/
theorem BlockInv.takes_configError {s : State} (h : BlockInv s) (hs : s.seq = .idle) (n w : Nat) :
    BlockInv (takeConfigError n w s) := by
  refine .of_traceOk h.parLegal ?_ ?_ ?_ (fun _ => rfl) h.strOk h.portOk (h.enable_idle hs)
    (TraceOk.nil _ _)
  · exact Life.noConfusion
  · intro k hk
    exact Seq.noConfusion hk
  · intro hno
    exact hno.elim Life.noConfusion Life.noConfusion

/-- A checked construction starts INIT on an empty trace (R110, R222). -/
theorem BlockInv.begins {s : State} (h : BlockInv s) (hs : s.seq = .idle) {d : Bool} (n f : Bool)
    (hlen : s.pinsArg.data.length = widthOf d) (hdist : s.pinsArg.distinct = true) :
    BlockInv (beginInstance d n f s) := by
  let t : State := beginInstance d n f s
  show BlockInv t
  have hfull : fullTrace t = initEvents s.par { dl := d, n := n, f := f } := by
    rw [← events_init]
    rfl
  refine .of_traceOk h.parLegal ?_ ?_ (fun _ => ⟨hlen, hdist⟩) (fun _ => rfl) h.strOk h.portOk
    (h.enable_idle hs) (by rw [hfull]; exact traceOk_init h.parLegal _)
  · exact ⟨Nat.succ_pos _, .inl ⟨rfl, rfl⟩⟩
  · intro k hk
    injection hk with hk
    exact Instr.noConfusion hk

/-! ## Every step -/

/-- Construction keeps the invariant. -/
theorem BlockInv.exec_construct {d n f : Bool} {s t : State} (h : BlockInv s)
    (hx : exec (.construct d n f) s = .next t) : BlockInv t := by
  obtain ⟨hs, ⟨-, rfl⟩ | ⟨hlen, hdist, rfl⟩⟩ := exec_construct_cases hx
  · exact h.takes_configError hs _ _
  · exact h.begins hs n f hlen hdist

/-- A public operation that is a sequence, and INIT, keep the invariant. -/
theorem BlockInv.exec_sequence {i : Instr} {s t : State} (h : BlockInv s)
    (hi : isSequence i = true) (hop : i = .init ∨ i.isPublic = true)
    (hx : exec i s = .next t) : BlockInv t := by
  obtain ⟨-, -, -, rfl⟩ | ⟨hs, ha, -, rfl⟩ | ⟨k, m, hs, -, hm, hev⟩ := exec_next_cases hi hx
  · exact h
  · obtain rfl | hpub := hop
    · have hidle : s.life ≠ .initialising := by simpa [Machine.seqOk, hs] using h.seqOk
      exact absurd (of_decide_eq_true ha) hidle
    · have hput : i ≠ .putString := by
        rintro rfl
        simp [isSequence] at hi
      exact h.accepts hs (ready_of_admitted hpub ha) hpub (absurd · hput)
  · obtain ⟨hk, rfl⟩ | ⟨hk, rfl⟩ := hev
    · exact h.emits hs hm hk
    · refine h.emits_last (p := s.strpos) hs hm hk ?_
      obtain ⟨rfl, -⟩ | ⟨-, hl⟩ := (h.running hs).2
      · rfl
      · simp [hl]

/-- PUT_STRING keeps the invariant. -/
theorem BlockInv.exec_putString {s t : State} (h : BlockInv s)
    (hx : exec .putString s = .next t) : BlockInv t := by
  obtain ⟨-, -, rfl⟩ | ⟨hs, -, -, rfl⟩ | ⟨c, hs, hl, -, hread, hc, rfl⟩ | ⟨k, m, hs, hm, hev⟩ :=
    exec_putString_cases hx
  · exact h
  · have hidle := h.with_host (p := 0) (pins := s.pinsArg) hs h.portOk h.strOk
    rwa [hs] at hidle
  · exact h.accepts hs hl rfl (fun _ => ⟨hread, hc⟩)
  · have hl : s.life = .ready := by simpa [Instr.isPublic] using (h.running hs).2
    obtain ⟨hk, rfl⟩ | ⟨hk, -, rfl⟩ | ⟨hk, c, hread, hc, rfl⟩ := hev
    · exact h.emits hs hm (by simpa [sequenceOf] using hk)
    · exact h.emits_last hs hm (by simpa [sequenceOf] using hk) hl
    · have hidle : BlockInv { emit m s with strpos := s.strpos + 1, seq := .idle } :=
        h.emits_last hs hm (by simpa [sequenceOf] using hk) hl
      exact hidle.accepts rfl hl rfl (fun _ => ⟨hread, hc⟩)

/-- INIT and the public operations keep the invariant. -/
theorem BlockInv.exec_operation {i : Instr} {s t : State} (h : BlockInv s)
    (hop : i = .init ∨ i.isPublic = true) (hx : exec i s = .next t) : BlockInv t := by
  obtain hseq | rfl := isSequence_or_putString (ne_construct_of_operation hop)
  · exact h.exec_sequence hseq hop hx
  · exact h.exec_putString hx

/-- Settles O57: the operation in SEQ, or an idle block that takes what the host presents and runs it. -/
theorem stepKeepsInv : Obligations.StepKeepsInv := by
  unfold Obligations.StepKeepsInv
  intro s t h hstep
  obtain ⟨i, k, hs, hx⟩ | ⟨-, -, rfl⟩ | ⟨x, rest, hs, hp, rfl⟩ |
    ⟨w, pins, rest, d, n, f, hs, hp, hx⟩ | ⟨w, m, rest, i, hs, -, hp, hpub, -, hx⟩ :=
    step_cases hstep
  · exact h.exec_operation ((h.running hs).2.imp And.left And.left) hx
  · exact h
  · exact h.with_port (fun y hy => h.portOk y (by simp [hp, hy]))
  · have hrest : ∀ y ∈ rest, y.wf := fun y hy => h.portOk y (by simp [hp, hy])
    exact (h.with_host hs hrest h.strOk).exec_construct hx
  · have hrest : ∀ y ∈ rest, y.wf := fun y hy => h.portOk y (by simp [hp, hy])
    have hm : m.wf := h.portOk (.request w m) (by simp [hp])
    exact (h.with_host hs hrest hm).exec_operation (.inr hpub) hx

/-- Before construction nothing is emitted and nothing runs (R27). -/
theorem unbuilt_inv : BlockInv State.unbuilt :=
  .of_traceOk rfl Life.noConfusion (fun _ h => Seq.noConfusion h) (fun _ => ⟨rfl, rfl⟩)
    (fun _ => rfl) .nil (by simp [State.unbuilt, State.reset]) rfl (TraceOk.nil _ _)

/-- Settles O58: reset is the construction of the strapped arguments (R220, R222). -/
theorem resetHasInv : Obligations.ResetHasInv := by
  unfold Obligations.ResetHasInv
  have hreset : State.reset =
      beginInstance Config.strapDL Config.strapN Config.strapF State.unbuilt := rfl
  exact ⟨hreset ▸ unbuilt_inv.begins rfl _ _ rfl rfl, unbuilt_inv⟩

/-- Settles O59: the invariant holds at both starts with the host's items at the port, and every step keeps it. -/
theorem reachableStatesHaveInv : Obligations.ReachableStatesHaveInv := by
  unfold Obligations.ReachableStatesHaveInv
  intro port n u hport hrun
  obtain ⟨hreset, hunbuilt⟩ := resetHasInv
  obtain hrun | hrun := hrun
  · exact run_keeps stepKeepsInv (hreset.with_port hport) hrun
  · exact run_keeps stepKeepsInv (hunbuilt.with_port hport) hrun

end Sys2Proof.Machine
end

section
/-! PROOFS. What one execution may change, what it depends on, the configuration along every step, and the lines the events reach (R20, R22, R23, R32, R35, R169). -/

namespace Sys2Proof.Machine

/-- `t` is `s` with SEQ, LIFE, BYTE and STRPOS at any values and every other field as it was. -/
def SameButControl (s t : State) : Prop :=
  t = { s with seq := t.seq, life := t.life, byte := t.byte, strpos := t.strpos }

/-- Everything an instruction but CONSTRUCT can change: SEQ, LIFE, BYTE and STRPOS, and what emitting one event changes; LIFE only by INIT, STRPOS only by PUT_STRING. -/
theorem exec_changes {i : Instr} {s t : State} (hi : ∀ d n f, i ≠ .construct d n f)
    (h : exec i s = .next t) :
    (SameButControl s t ∨ ∃ m, SameButControl (emit m s) t) ∧
      (t.life = s.life ∨ (i = .init ∧ t.life = .ready)) ∧
      (t.strpos = s.strpos ∨ i = .putString) := by
  obtain hseq | rfl := isSequence_or_putString hi
  · obtain ⟨-, -, -, rfl⟩ | ⟨-, -, -, rfl⟩ | ⟨k, m, -, -, -, ⟨-, rfl⟩ | ⟨-, rfl⟩⟩ :=
      exec_next_cases hseq h
    · exact ⟨.inl rfl, .inl rfl, .inl rfl⟩
    · exact ⟨.inl rfl, .inl rfl, .inl rfl⟩
    · exact ⟨.inr ⟨m, rfl⟩, .inl rfl, .inl rfl⟩
    · refine ⟨.inr ⟨m, rfl⟩, ?_, .inl rfl⟩
      by_cases hinit : i = .init
      · exact .inr ⟨hinit, if_pos hinit⟩
      · exact .inl (if_neg hinit)
  · obtain ⟨-, -, rfl⟩ | ⟨-, -, -, rfl⟩ | ⟨c, -, -, -, -, -, rfl⟩ | ⟨k, m, -, -, hev⟩ :=
      exec_putString_cases h
    · exact ⟨.inl rfl, .inl rfl, .inr rfl⟩
    · exact ⟨.inl rfl, .inl rfl, .inr rfl⟩
    · exact ⟨.inl rfl, .inl rfl, .inr rfl⟩
    · obtain ⟨-, rfl⟩ | ⟨-, -, rfl⟩ | ⟨-, c, -, -, rfl⟩ := hev <;>
        exact ⟨.inr ⟨m, rfl⟩, .inl rfl, .inr rfl⟩

/-- Settles O45: emitting an event changes PIN and TRACE by that event and none of the fields named. -/
theorem oneStepFrame : Obligations.OneStepFrame := by
  unfold Obligations.OneStepFrame
  intro i s t hi h
  obtain ⟨ht | ⟨m, ht⟩, hlife, hstrpos⟩ := exec_changes hi h
  · rw [ht]
    exact ⟨rfl, rfl, rfl, rfl, rfl, rfl, fun _ => rfl, hlife, hstrpos, [], by simp, by simp, rfl⟩
  · rw [ht]
    exact ⟨rfl, rfl, rfl, rfl, rfl, rfl, fun _ => rfl, hlife, hstrpos, [m.ev], by simp, rfl, rfl⟩

/-! ## What an execution depends on -/

/-- `s` and `s'` agree on what an execution may read: the parameters, CFG, SEQ, LIFE, BYTE, STRPOS and the string operand (R20, R169). -/
structure SameInputs (s s' : State) : Prop where
  par : s'.par = s.par
  cfg : s'.cfg = s.cfg
  seq : s'.seq = s.seq
  life : s'.life = s.life
  byte : s'.byte = s.byte
  strpos : s'.strpos = s.strpos
  str : s'.str = s.str

/-- From `s` to `t` and from `s'` to `t'` the same events are emitted, and SEQ, LIFE, BYTE and STRPOS end alike. -/
def SameEffect (s t s' t' : State) : Prop :=
  ∃ es, t.trace = s.trace ++ es ∧ t'.trace = s'.trace ++ es ∧
    t'.seq = t.seq ∧ t'.life = t.life ∧ t'.byte = t.byte ∧ t'.strpos = t.strpos

/-- A sequence reads the named inputs only. -/
theorem exec_sequence_sameEffect {i : Instr} {s s' t : State} (hi : isSequence i = true)
    (hin : SameInputs s s') (h : exec i s = .next t) :
    ∃ t', exec i s' = .next t' ∧ SameEffect s t s' t' := by
  have hsame : sequenceOf i s' = sequenceOf i s := sequenceOf_congr hi hin.par hin.cfg
  obtain ⟨hs, ha, hw, rfl⟩ | ⟨hs, ha, hw, rfl⟩ | ⟨k, m, hs, hw, hm, -⟩ := exec_next_cases hi h
  · have hx := exec_not_admitted hi (widthFits_congr hin.cfg hw) (hin.seq.trans hs)
      (by rw [hin.life, ha])
    exact ⟨s', hx, [], by simp, by simp, hin.seq, hin.life, hin.byte, hin.strpos⟩
  · have hx := exec_accepts hi (widthFits_congr hin.cfg hw) (hin.seq.trans hs)
      (by rw [hin.life, ha])
    exact ⟨_, hx, [], by simp, by simp, rfl, hin.life, hin.byte, hin.strpos⟩
  · have hx' := exec_emits hi (widthFits_congr hin.cfg hw) (hin.seq.trans hs) (by rw [hsame, hm])
    rw [exec_emits hi hw hs hm] at h
    injection h with h
    subst h
    refine ⟨_, hx', [m.ev], rfl, rfl, ?_, ?_, ?_, hin.strpos⟩
    · simp only [hsame]
    · simp only [hsame, hin.life]
    · simp only [emit_byte, hin.byte]

/-- PUT_STRING reads the named inputs only. -/
theorem exec_putString_sameEffect {s s' t : State} (hin : SameInputs s s')
    (h : exec .putString s = .next t) :
    ∃ t', exec .putString s' = .next t' ∧ SameEffect s t s' t' := by
  obtain ⟨hs, hl, rfl⟩ | ⟨hs, hl, hread, rfl⟩ | ⟨c, hs, hl, hlen, hread, hc, rfl⟩ |
    ⟨k, m, hs, hm, hev⟩ := exec_putString_cases h
  · have hx := exec_putString_not_ready (hin.seq.trans hs) (by rwa [hin.life])
    exact ⟨s', hx, [], by simp, by simp, hin.seq, hin.life, hin.byte, hin.strpos⟩
  · have hx := exec_putString_begins (hin.seq.trans hs) (hin.life.trans hl)
      (Memory.stringLength_isSome_of_empty (by rwa [hin.str]))
    rw [fetchChar_sentinel (by simpa [hin.str] using hread)] at hx
    exact ⟨_, hx, [], by simp, by simp, rfl, hin.life, hin.byte, rfl⟩
  · have hx := exec_putString_begins (hin.seq.trans hs) (hin.life.trans hl) (by rwa [hin.str])
    rw [fetchChar_char (by simpa [hin.str] using hread) hc] at hx
    exact ⟨_, hx, [], by simp, by simp, rfl, hin.life, rfl, rfl⟩
  · have hs' := hin.seq.trans hs
    have hm' : (seqSendData s'.par s'.cfg.dl s'.byte)[k]? = some m := by
      rw [hin.par, hin.cfg, hin.byte, hm]
    have hnext : ∀ {b}, s.str.read (s.strpos + 1) = some b →
        s'.str.read (s'.strpos + 1) = some b := by
      intro b hb
      rw [hin.str, hin.strpos, hb]
    obtain ⟨hk, rfl⟩ | ⟨hk, hread, rfl⟩ | ⟨hk, c, hread, hc, rfl⟩ := hev
    · have hx := exec_putString_emits hs' hm' (by rwa [hin.cfg])
      exact ⟨_, hx, [m.ev], rfl, rfl, rfl, hin.life, by simp [hin.byte], hin.strpos⟩
    · have hx := exec_putString_ends_char hs' hm' (by rwa [hin.cfg])
      rw [fetchChar_sentinel (hnext hread)] at hx
      exact ⟨_, hx, [m.ev], rfl, rfl, rfl, hin.life, by simp [hin.byte], by simp [hin.strpos]⟩
    · have hx := exec_putString_ends_char hs' hm' (by rwa [hin.cfg])
      rw [fetchChar_char (hnext hread) hc] at hx
      exact ⟨_, hx, [m.ev], rfl, rfl, rfl, hin.life, rfl, by simp [hin.strpos]⟩

/-- Settles O47: for the sequences and for PUT_STRING, the same case of the execution holds in both states. -/
theorem eventsIgnorePinsAndHistory : Obligations.EventsIgnorePinsAndHistory := by
  unfold Obligations.EventsIgnorePinsAndHistory
  intro i s s' t hi hpar hcfg hseq hlife hbyte hstrpos hstr h
  have hin : SameInputs s s' := ⟨hpar, hcfg, hseq, hlife, hbyte, hstrpos, hstr⟩
  have heffect : ∃ t', exec i s' = .next t' ∧ SameEffect s t s' t' := by
    obtain hsequence | rfl := isSequence_or_putString hi
    · exact exec_sequence_sameEffect hsequence hin h
    · exact exec_putString_sameEffect hin h
  obtain ⟨t', hx, es, hevents⟩ := heffect
  exact ⟨t', es, hx, hevents⟩

/-! ## The configuration -/

/-- What gives a next state inside an operation is no CONSTRUCT, which waits for the operation in progress (R63). -/
theorem ne_construct_of_running {i j : Instr} {s t : State} {k : Nat} (hs : s.seq = .run j k)
    (h : exec i s = .next t) : ∀ d n f, i ≠ .construct d n f := by
  rintro d n f rfl
  exact absurd (hs.symm.trans (exec_construct_cases h).1) Seq.noConfusion

/-- No instruction but CONSTRUCT writes the parameters, CFG or PINMAP (R32, R35). -/
theorem exec_keeps_configuration {i : Instr} {s t : State} (hi : ∀ d n f, i ≠ .construct d n f)
    (h : exec i s = .next t) : t.par = s.par ∧ t.cfg = s.cfg ∧ t.pinmap = s.pinmap := by
  obtain ⟨hpar, hcfg, hpinmap, -⟩ := oneStepFrame i s t hi h
  exact ⟨hpar, hcfg, hpinmap⟩

/-- The fields of a construction's word make the word again (R21, R89). -/
theorem word_of_fields : ∀ w : BitVec 3,
    Cfg.word { dl := bitOf w.toNat 2, n := bitOf w.toNat 1, f := bitOf w.toNat 0 } = w := by
  decide

/-- Settles O48: of the steps only a checked construction writes CFG and PINMAP, from its word and its Pin Assignment. -/
theorem configurationIsImmutable : Obligations.ConfigurationIsImmutable := by
  unfold Obligations.ConfigurationIsImmutable
  intro s t hstep
  obtain ⟨i, k, hs, hx⟩ | ⟨-, -, rfl⟩ | ⟨x, rest, -, -, rfl⟩ |
    ⟨w, pins, rest, -, -, -, hs, hp, -⟩ | ⟨w, m, rest, i, -, -, -, hpub, -, hx⟩ :=
    step_cases hstep
  · obtain ⟨hpar, hcfg⟩ := exec_keeps_configuration (ne_construct_of_running hs hx) hx
    exact ⟨hpar, .inl hcfg⟩
  · exact ⟨rfl, .inl ⟨rfl, rfl⟩⟩
  · exact ⟨rfl, .inl ⟨rfl, rfl⟩⟩
  · rw [step_construct hs hp (constructWord_eq w)] at hstep
    obtain ⟨-, ⟨-, rfl⟩ | ⟨-, -, rfl⟩⟩ := exec_construct_cases hstep
    · exact ⟨rfl, .inl ⟨rfl, rfl⟩⟩
    · exact ⟨rfl, .inr ⟨hs, rfl, rfl, rfl, w, pins, rest, hp, rfl, word_of_fields w⟩⟩
  · obtain ⟨hpar, hcfg⟩ := exec_keeps_configuration (ne_construct_of_operation (.inr hpub)) hx
    exact ⟨hpar, .inl hcfg⟩

/-! ## The lines -/

/-- The place of a signal's handle in the list of all the handles: RS, RW, E, then the Data lines (R22). -/
def Signal.place : Signal → Nat
  | .rs => 0
  | .rw => 1
  | .e => 2
  | .d i => i.val + 3

theorem Signal.place_injective : Function.Injective Signal.place := by
  intro a b h
  cases a <;> cases b
  case d.d i j => exact congrArg Signal.d (Fin.ext (Nat.add_right_cancel h))
  all_goals simp [Signal.place] at h ⊢

theorem PinMap.handle_eq_getElem (m : PinMap) (a : Signal) : m.handle a = m.handles[a.place]? := by
  cases a <;> rfl

/-- With distinct handles no handle belongs to two signals (R22). -/
theorem PinMap.handle_injective {m : PinMap} (hm : m.distinct = true) {a b : Signal} {h : Handle}
    (ha : m.handle a = some h) (hb : m.handle b = some h) : a = b := by
  have hnodup : m.handles.Nodup := of_decide_eq_true hm
  rw [PinMap.handle_eq_getElem] at ha hb
  obtain ⟨hlt, -⟩ := List.getElem?_eq_some_iff.1 ha
  exact Signal.place_injective ((List.getElem?_inj hlt hnodup).1 (ha.trans hb.symm))

/-- Where the Data list has the bus width, an event that drives an existing line is a call (R16). -/
theorem call_isSome_of_lineExists {m : PinMap} {n : Nat} {e : Event} (hlen : m.data.length = n)
    (he : linesExist n [e] = true) : (Event.call m e).isSome = true := by
  cases e with
  | delay k => rfl
  | setPin s v =>
    cases s with
    | d i =>
      have hi : i.val < m.data.length := by simpa [linesExist, hlen] using he
      simp [Event.call, PinMap.handle, hi]
    | _ => rfl

/-- A transmission drives the lines of the bus width only (R23, R158). -/
theorem linesExist_tx (p : Params) (dl : Bool) (rs : Level) (b : Byte) :
    linesExist (widthOf dl) (txEvents p dl rs b) = true := by
  cases dl <;> rfl

/-- Settles O49: the handles of a pin map are a list without repetition, and a transmission drives the lines of the bus width only. -/
theorem eventsReachTheirOwnLines : Obligations.EventsReachTheirOwnLines := by
  unfold Obligations.EventsReachTheirOwnLines
  intro m dl hlen hdist
  refine ⟨fun a b h ha hb => PinMap.handle_injective hdist ha hb, ?_, ?_⟩
  · intro p rs b e he
    have hall := List.all_eq_true.1 (linesExist_tx p dl rs b) e he
    exact call_isSome_of_lineExists (n := widthOf dl) hlen
      (List.all_eq_true.2 (by simpa using hall))
  · intro i h v hi
    simp [Event.call, PinMap.handle, hi]

end Sys2Proof.Machine
end

section
/-! PROOFS. INIT stepped to its end, and the READY block a construction leads to (R33, R110, R111, R222, R250). -/

namespace Sys2Proof.Machine

/-- The number of events of INIT: 71 or 120 (R111, R250). -/
def initCount (dl : Bool) : Nat := if dl then 71 else 120

theorem length_seqInit (p : Params) (c : Cfg) : (seqInit p c).length = initCount c.dl := by
  rw [← length_eventsOf, events_init]
  obtain ⟨dl, n, f⟩ := c
  cases dl <;> rfl

/-- From SEQ = (INIT, 0) all the events of INIT are emitted, one a step, and the block is idle and READY (R110, R222). -/
theorem run_init {s : State} (hs : s.seq = .run .init 0) :
    run (initCount s.cfg.dl) s =
      .next { emitAll (seqInit s.par s.cfg) s with seq := .idle, life := .ready } := by
  have hlen := length_seqInit s.par s.cfg
  have hpos : 0 < initCount s.cfg.dl := by cases s.cfg.dl <;> decide
  obtain ⟨n, hn⟩ := Nat.exists_eq_add_one.2 hpos
  rw [hn] at hlen ⊢
  rw [run_rest (i := .init) rfl ⟨nofun, nofun⟩ hs (by rw [sequenceOf, hlen]; omega) n hlen.symm]
  rfl

/-- INIT ends with the command transmission of 0x06 (R111, R116). -/
theorem seqInit_eq_append_entryMode (p : Params) (c : Cfg) :
    ∃ ms, seqInit p c = ms ++ seqTransmit p c.dl false 0x06#8 := ⟨_, rfl⟩

/-- BYTE after INIT is 0x06 (R25, R33). -/
theorem emitAll_init_byte (p : Params) (s : State) :
    (emitAll (seqInit p s.cfg) s).byte = 0x06#8 := by
  obtain ⟨ms, hms⟩ := seqInit_eq_append_entryMode p s.cfg
  rw [emitAll_byte, hms, List.foldl_append, foldl_tx_byte]

/-- PIN after INIT is as the transmission of 0x06 leaves it (R33, R164). -/
theorem emitAll_init_pins (p : Params) (s : State) :
    ∃ q, (emitAll (seqInit p s.cfg) s).pins = txPins p s.cfg.dl false 0x06#8 q := by
  obtain ⟨ms, hms⟩ := seqInit_eq_append_entryMode p s.cfg
  exact ⟨_, by rw [emitAll_pins, hms, eventsOf_append, List.foldl_append, events_transmit,
    foldl_tx_pins]⟩

/-- With legal delays INIT requests at least 80 units on an 8-bit bus and 99 on a 4-bit one (R250). -/
theorem le_leastTimeOf_init {p : Params} (hp : p.legal = true) (c : Cfg) :
    (if c.dl then 80 else 99) ≤ leastTimeOf (initEvents p c) := by
  obtain ⟨hon, hsettle, hpulse⟩ := (Params.legal_iff p).1 hp
  obtain ⟨dl, n, f⟩ := c
  cases dl with
  | false =>
    simp [leastTimeOf, initEvents, initBytes, txEvents, tx4, Event.leastTime]
    omega
  | true =>
    simp [leastTimeOf, initEvents, initBytes, txEvents, tx8, Event.leastTime]
    omega

/-- At least that time passes while INIT is emitted (R14, R250). -/
theorem le_emitAll_init_time {s : State} (hp : s.par.legal = true) :
    s.time + ((if s.cfg.dl then 80 else 99 : Nat) : Rat) ≤
      (emitAll (seqInit s.par s.cfg) s).time := by
  have hleast : ((if s.cfg.dl then 80 else 99 : Nat) : Rat) ≤
      leastTimeOf (eventsOf (seqInit s.par s.cfg)) := by
    rw [events_init]
    exact Nat.cast_le.2 (le_leastTimeOf_init hp s.cfg)
  have htime := le_emitAll_time (seqInit s.par s.cfg) s
  linarith

/-- Settles O20: the construction is at the first event of INIT, and INIT runs to its end. -/
theorem constructedInstanceBecomesReady : Obligations.ConstructedInstanceBecomesReady := by
  unfold Obligations.ConstructedInstanceBecomesReady
  intro d n f s t hlegal hx hlife
  obtain ⟨-, ⟨-, rfl⟩ | ⟨-, -, rfl⟩⟩ := exec_construct_cases hx
  · exact Life.noConfusion hlife
  let t := beginInstance d n f s
  let u := emitAll (seqInit t.par t.cfg) t
  have htrace : u.trace = initEvents s.par t.cfg := by
    rw [emitAll_trace, events_init]
    rfl
  have htime : ((if d then 80 else 99 : Nat) : Rat) ≤ u.time := by
    have hle := le_emitAll_init_time (s := t) hlegal
    rwa [beginInstance_time, zero_add] at hle
  obtain ⟨q, hpins : u.pins = _⟩ := emitAll_init_pins t.par t
  have hbyte : u.byte = 0x06#8 := emitAll_init_byte t.par t
  refine ⟨{ u with seq := .idle, life := .ready }, run_init (s := t) rfl, rfl, rfl, rfl, rfl,
    emitAll_cfg _ t, emitAll_pinmap _ t, hbyte, htrace, ?_⟩
  simp only [hpins]
  cases d with
  | false => exact ⟨rfl, rfl, rfl, rfl, rfl, rfl, rfl, nofun, emitAll_port _ t, htime⟩
  | true =>
    exact ⟨rfl, rfl, rfl, rfl, rfl, rfl, rfl, fun _ => ⟨rfl, rfl, rfl, rfl⟩, emitAll_port _ t,
      htime⟩

end Sys2Proof.Machine
end

section
/-! PROOFS. A host's calls: the request of each call taken by an idle, READY block and stepped to its end, and a list of calls (R63, R88, R89, R181). -/

namespace Sys2Proof.Machine

/-- The request word of a public operation names that operation (R88, R89). -/
theorem hostRequest_requestWord {i : Instr} (hi : i.isPublic = true) :
    hostRequest (requestWord i) = some i := by
  refine hostRequest_eq_some ?_ hi
  cases i with
  | turnOn cs => cases cs <;> rfl
  | turnOff | clear | putString => rfl
  | putChar b =>
    have hlt : encode (.putChar b) < 4096 := by
      have hb := b.isLt
      simp only [encode]
      omega
    rw [requestWord, BitVec.toNat_ofNat, Nat.mod_eq_of_lt hlt]
    exact Laws.RoundTrip.putChar b rfl
  | _ => simp [Instr.isPublic] at hi

/-- READY admits every public operation (R88). -/
theorem admittedIn_of_public {i : Instr} {l : Life} (hi : i.isPublic = true) (hl : l = .ready) :
    Instr.admittedIn i l = true := by
  cases i with
  | turnOn _ | turnOff | clear | putChar _ | putString => exact decide_eq_true hl
  | _ => simp [Instr.isPublic] at hi

/-- No public operation needs one bus width (R160). -/
theorem widthFits_of_public {i : Instr} (hi : i.isPublic = true) (s : State) : widthFits i s := by
  cases i with
  | turnOn _ | turnOff | clear | putChar _ | putString => exact ⟨nofun, nofun⟩
  | _ => simp [Instr.isPublic] at hi

/-! ## The block after a completed operation -/

/-- `s` after the events `ms` of an operation, SEQ IDLE again (R8, R24). -/
def completed (ms : List Micro) (s : State) : State := { emitAll ms s with seq := .idle }

@[simp] theorem completed_seq (ms : List Micro) (s : State) : (completed ms s).seq = .idle := rfl
@[simp] theorem completed_par (ms : List Micro) (s : State) : (completed ms s).par = s.par :=
  emitAll_par ms s
@[simp] theorem completed_cfg (ms : List Micro) (s : State) : (completed ms s).cfg = s.cfg :=
  emitAll_cfg ms s
@[simp] theorem completed_pinmap (ms : List Micro) (s : State) :
    (completed ms s).pinmap = s.pinmap := emitAll_pinmap ms s
@[simp] theorem completed_life (ms : List Micro) (s : State) : (completed ms s).life = s.life :=
  emitAll_life ms s
@[simp] theorem completed_port (ms : List Micro) (s : State) : (completed ms s).port = s.port :=
  emitAll_port ms s
@[simp] theorem completed_trace (ms : List Micro) (s : State) :
    (completed ms s).trace = s.trace ++ eventsOf ms := emitAll_trace ms s

theorem emitAll_withStrpos (ms : List Micro) (n : Nat) (s : State) :
    emitAll ms { s with strpos := n } = { emitAll ms s with strpos := n } := by
  induction ms generalizing s with
  | nil => rfl
  | cons m ms ih => exact ih (emit m s)

/-- STRPOS may move before the first of the events or between any two: no event reads it (R26). -/
theorem completed_append (ms ns : List Micro) (n : Nat) (s : State) :
    completed (ms ++ ns) { s with strpos := n } =
      completed ns { emitAll ms s with strpos := n } := by
  rw [← emitAll_withStrpos ms n s, completed, emitAll_append]
  rfl

/-! ## The operations that are one sequence of events -/

/-- A public operation that is a sequence, requested of an idle, READY block: its acceptance and its events, one a step (R24, R88). -/
theorem run_request_sequence {i : Instr} {s : State} {m : Memory} {rest : List Presented}
    (hseq : isSequence i = true) (hi : i.isPublic = true) (hs : s.seq = .idle)
    (hl : s.life = .ready) (hp : s.port = .request (requestWord i) m :: rest) :
    run (1 + (sequenceOf i s).length) s =
      .next (completed (sequenceOf i s) { s with port := rest, str := m }) := by
  let t : State := { s with port := rest, str := m }
  have hsame : sequenceOf i t = sequenceOf i s := sequenceOf_congr hseq rfl rfl
  obtain ⟨n, hn⟩ := Nat.exists_eq_add_one.2 (sequenceOf_public_pos hi s)
  obtain ⟨t', hx, hrun⟩ := exec_then_run (n := n) hseq (widthFits_of_public hi t)
    (.inr ⟨hs, admittedIn_of_public hi hl⟩) (by rw [hsame, hn])
  have hdone : i ≠ .init := by rintro rfl; simp [Instr.isPublic] at hi
  rw [Nat.add_comm, hn, run_succ, step_request hs hl hp (hostRequest_requestWord hi), hx]
  rw [stepsLeft, if_pos hs, hsame, doneOf_eq, if_neg hdone] at hrun
  exact hrun

/-! ## PUT_STRING -/

/-- A transmission latches its own byte, whatever byte was held before, and reads neither STRPOS nor SEQ (R25, R26, R152). -/
theorem emitAll_sendData_held (p : Params) (dl : Bool) (b c : Byte) (n : Nat) (q : Seq)
    (s : State) : emitAll (seqSendData p dl b) { s with strpos := n, byte := c, seq := q } =
      { emitAll (seqSendData p dl b) s with strpos := n, seq := q } := by
  obtain ⟨ev, ms, hms⟩ : ∃ ev ms, seqSendData p dl b = { byte := some b, ev := ev } :: ms := by
    cases dl <;> exact ⟨_, _, rfl⟩
  let t := emit { byte := some b, ev := ev } s
  have hhead : emit { byte := some b, ev := ev } { s with strpos := n, byte := c, seq := q } =
      { t with strpos := n, seq := q } := rfl
  rw [hms, emitAll_cons, emitAll_cons, hhead, emitAll_withSeq ms q { t with strpos := n },
    emitAll_withStrpos]

/-- The byte in BYTE is transmitted, one event a step, and the byte after it is fetched (R182). -/
theorem run_one_char (b : Byte) (n : Nat) (s : State) :
    run (txCount s.cfg.dl) { s with strpos := n, byte := b, seq := .run .putString 0 } =
      fetchChar toNextChar { emitAll (seqSendData s.par s.cfg.dl b) s with
        strpos := n + 1, seq := .run .putString 0 } := by
  obtain ⟨k, hk⟩ := Nat.exists_eq_add_one.2 (Nat.lt_trans Nat.zero_lt_one (one_lt_txCount s.cfg.dl))
  have hrun := run_char (s := { s with strpos := n, byte := b, seq := .run .putString 0 })
    (n := k) rfl rfl (hk ▸ (length_seqSendData _ _ _).symm)
  rw [List.drop_zero, emitAll_sendData_held] at hrun
  rw [hk]
  exact hrun

/-- The fetch at STRPOS, where the bytes `bs` and a sentinel stand, and the steps after it transmit those bytes in order and end the operation, STRPOS at the sentinel (R181, R182). -/
theorem fetchChar_then_run {bs junk : List Byte} (hbs : ∀ b ∈ bs, b ≠ Config.sentinel) {s : State}
    {n : Nat} (q : Seq) (hread : ∀ k, s.str.read (n + k) = (bs ++ Config.sentinel :: junk)[k]?) :
    ∃ t, fetchChar toNextChar { s with strpos := n, seq := q } = .next t ∧
      run (bs.length * txCount s.cfg.dl) t =
        .next (completed (bs.flatMap (seqSendData s.par s.cfg.dl))
          { s with strpos := n + bs.length }) := by
  induction bs generalizing s n q with
  | nil =>
    refine ⟨_, fetchChar_sentinel (by simpa using hread 0), ?_⟩
    rw [List.length_nil, Nat.zero_mul]
    rfl
  | cons b bs ih =>
    obtain ⟨hb, hrest⟩ := List.forall_mem_cons.1 hbs
    let ms := seqSendData s.par s.cfg.dl b
    have hnext : ∀ k, (emitAll ms s).str.read (n + 1 + k) =
        (bs ++ Config.sentinel :: junk)[k]? := by
      intro k
      rw [emitAll_str, Nat.add_assoc, Nat.add_comm 1 k]
      exact hread (k + 1)
    obtain ⟨t, hfetch, hrun⟩ := ih hrest (.run .putString 0) hnext
    rw [← completed_append ms, emitAll_cfg, emitAll_par, Nat.add_assoc, Nat.add_comm 1] at hrun
    refine ⟨_, fetchChar_char (by simpa using hread 0) hb, ?_⟩
    rw [List.length_cons, Nat.succ_mul, Nat.add_comm,
      run_add _ _ _ _ ((run_one_char b n s).trans hfetch), hrun]
    rfl

/-- PUT_STRING of a string, requested of an idle, READY block: its acceptance and the transmissions of its bytes, one event a step (R24, R88, R181). -/
theorem run_request_putString {bs junk : List Byte} (hbs : ∀ b ∈ bs, b ≠ Config.sentinel)
    {s : State} {rest : List Presented} (hs : s.seq = .idle) (hl : s.life = .ready)
    (hp : s.port = .request (requestWord .putString)
      (Memory.ofBytes (bs ++ Config.sentinel :: junk)) :: rest) :
    run (1 + bs.length * txCount s.cfg.dl) s =
      .next (completed (bs.flatMap (seqSendData s.par s.cfg.dl))
        { s with
          port := rest, str := Memory.ofBytes (bs ++ Config.sentinel :: junk)
          strpos := bs.length }) := by
  let m := Memory.ofBytes (bs ++ Config.sentinel :: junk)
  have hlen : m.stringLength.isSome = true :=
    Option.isSome_of_eq_some (Memory.stringLength_ofBytes bs junk hbs)
  let s' : State := { s with port := rest, str := m }
  obtain ⟨t, hfetch, hrun⟩ := fetchChar_then_run (s := s') (n := 0) (junk := junk) hbs s.seq
    (fun k => by simp [m, s'])
  rw [Nat.add_comm, run_succ, step_request hs hl hp (hostRequest_requestWord rfl),
    exec_putString_begins (s := s') hs hl hlen, hfetch]
  simpa only [Nat.zero_add] using hrun

/-! ## Events as transmissions -/

theorem length_txsEvents (p : Params) (dl : Bool) (l : List (Level × Byte)) :
    (txsEvents p dl l).length = l.length * txCount dl := by
  simp [txsEvents, List.length_flatMap]

theorem txsEvents_append (p : Params) (dl : Bool) (a b : List (Level × Byte)) :
    txsEvents p dl (a ++ b) = txsEvents p dl a ++ txsEvents p dl b := List.flatMap_append

/-- SEND_COMMAND is one transmission with RS = 0 (R150). -/
theorem eventsOf_sendCommand (p : Params) (dl : Bool) (b : Byte) :
    eventsOf (seqSendCommand p dl b) = txsEvents p dl [(false, b)] := by
  simp [seqSendCommand, txsEvents, Config.rsCommand]

/-- SEND_DATA is one transmission with RS = 1 (R151). -/
theorem eventsOf_sendData (p : Params) (dl : Bool) (b : Byte) :
    eventsOf (seqSendData p dl b) = txsEvents p dl [(true, b)] := by
  simp [seqSendData, txsEvents, Config.rsData]

theorem eventsOf_flatMap_sendData (p : Params) (dl : Bool) (bs : List Byte) :
    eventsOf (bs.flatMap (seqSendData p dl)) = txsEvents p dl (bs.map (true, ·)) := by
  induction bs with
  | nil => rfl
  | cons b bs ih =>
    rw [List.flatMap_cons, eventsOf_append, eventsOf_sendData, ih, ← txsEvents_append]
    rfl

/-! ## Calls -/

/-- `t` is `s` after the transmissions `l`, idle, the host's next items being `rest` (R8, R63). -/
structure Transmitted (l : List (Level × Byte)) (rest : List Presented) (s t : State) : Prop where
  trace : t.trace = s.trace ++ txsEvents s.par s.cfg.dl l
  seq : t.seq = .idle
  life : t.life = s.life
  port : t.port = rest
  par : t.par = s.par
  cfg : t.cfg = s.cfg
  pinmap : t.pinmap = s.pinmap

theorem Transmitted.trans {l l' : List (Level × Byte)} {rest rest' : List Presented}
    {s t u : State} (h : Transmitted l rest s t) (h' : Transmitted l' rest' t u) :
    Transmitted (l ++ l') rest' s u where
  trace := by rw [h'.trace, h.trace, h.par, h.cfg, txsEvents_append, List.append_assoc]
  seq := h'.seq
  life := h'.life.trans h.life
  port := h'.port
  par := h'.par.trans h.par
  cfg := h'.cfg.trans h.cfg
  pinmap := h'.pinmap.trans h.pinmap

/-- The events of an operation are transmissions; the host's side and STRPOS play no part (R7). -/
theorem transmitted_completed {ms : List Micro} {l : List (Level × Byte)} {s : State}
    (hev : eventsOf ms = txsEvents s.par s.cfg.dl l) (rest : List Presented) (m : Memory) (n : Nat) :
    Transmitted l rest s (completed ms { s with port := rest, str := m, strpos := n }) := by
  constructor <;> simp [hev]

/-- A call whose operation is a sequence is stepped to its end (R24, R63). -/
theorem run_call_of_sequence {c : HostCall} {i : Instr} (hi : isSequence i = true)
    (hpub : i.isPublic = true) (hword : c.presented = .request (requestWord i) []) {s : State}
    {rest : List Presented} (hs : s.seq = .idle) (hl : s.life = .ready)
    (hp : s.port = c.presented :: rest)
    (hev : eventsOf (sequenceOf i s) = txsEvents s.par s.cfg.dl c.txs) :
    ∃ t, run (c.steps s.par s.cfg.dl) s = .next t ∧ Transmitted c.txs rest s t := by
  refine ⟨_, ?_, transmitted_completed hev rest [] s.strpos⟩
  rw [HostCall.steps, ← hev, length_eventsOf]
  exact run_request_sequence hi hpub hs hl (hword ▸ hp)

/-- A call presented to an idle, READY block is taken and stepped to its end (R24, R63). -/
theorem run_call {c : HostCall} (hc : c.wf) {s : State} {rest : List Presented}
    (hs : s.seq = .idle) (hl : s.life = .ready) (hp : s.port = c.presented :: rest) :
    ∃ t, run (c.steps s.par s.cfg.dl) s = .next t ∧ Transmitted c.txs rest s t := by
  cases c with
  | turnOn cs =>
    refine run_call_of_sequence (i := .turnOn cs) rfl rfl rfl hs hl hp ?_
    rw [sequenceOf, seqTurnOn, dc_eq_cursorByte, eventsOf_sendCommand]
    rfl
  | turnOff =>
    exact run_call_of_sequence (i := .turnOff) rfl rfl rfl hs hl hp (eventsOf_sendCommand _ _ _)
  | clear =>
    refine run_call_of_sequence (i := .clear) rfl rfl rfl hs hl hp ?_
    rw [sequenceOf, seqClear, eventsOf_append, eventsOf_sendCommand, eventsOf_sendCommand,
      ← txsEvents_append]
    rfl
  | putChar b =>
    exact run_call_of_sequence (i := .putChar b) rfl rfl rfl hs hl hp (eventsOf_sendData _ _ _)
  | putString bytes =>
    refine ⟨_, ?_, transmitted_completed (eventsOf_flatMap_sendData s.par s.cfg.dl bytes) rest
      (Memory.ofBytes (bytes ++ [Config.sentinel])) bytes.length⟩
    rw [HostCall.steps, HostCall.txs, length_txsEvents, List.length_map]
    exact run_request_putString (junk := []) hc hs hl hp

/-- A list of calls presented to an idle, READY block is taken call by call (R63). -/
theorem run_calls {calls : List HostCall} (hwf : ∀ c ∈ calls, c.wf) {s : State}
    (hs : s.seq = .idle) (hl : s.life = .ready) (hp : s.port = calls.map HostCall.presented) :
    ∃ u, run ((calls.map (HostCall.steps s.par s.cfg.dl)).sum) s = .next u ∧
      Transmitted (calls.flatMap HostCall.txs) [] s u := by
  induction calls generalizing s with
  | nil => exact ⟨s, run_zero s, by simp [txsEvents], hs, rfl, hp, rfl, rfl, rfl⟩
  | cons c calls ih =>
    obtain ⟨hc, hcalls⟩ := List.forall_mem_cons.1 hwf
    obtain ⟨t, hcall, ht⟩ := run_call hc hs hl hp
    obtain ⟨u, hrest, hu⟩ := ih hcalls ht.seq (ht.life.trans hl) ht.port
    rw [ht.par, ht.cfg] at hrest
    exact ⟨u, (run_add _ _ _ _ hcall).trans hrest, ht.trans hu⟩

/-- Settles O55: the calls are taken one by one, each stepped to its end, where the block is idle and READY with the next call at the port. -/
theorem hostCallsAreEmittedInOrder : Obligations.HostCallsAreEmittedInOrder := by
  unfold Obligations.HostCallsAreEmittedInOrder
  intro calls s hs hl hp hwf
  obtain ⟨u, hrun, hu⟩ := run_calls hwf hs hl hp
  exact ⟨u, hrun, hu.trace, hu.seq, hu.life.trans hl, hu.port, hu.par, hu.cfg, hu.pinmap⟩

end Sys2Proof.Machine
end

section
/-! PROOFS. The decoder and the encoder of each format are inverse: the round trip of every instruction, and the converse by one lemma for each part of the decoder (R80 to R95). -/

namespace Sys2Proof

/-- Settles O1: the round trip of each row of the opcode table. -/
theorem decodeOfEncodeIsTheInstruction : Obligations.DecodeOfEncodeIsTheInstruction := by
  unfold Obligations.DecodeOfEncodeIsTheInstruction
  intro i
  cases i with
  | construct d n f => exact Laws.RoundTrip.construct d n f
  | init => exact Laws.RoundTrip.init
  | turnOn cs => exact Laws.RoundTrip.turnOn cs
  | turnOff => exact Laws.RoundTrip.turnOff
  | clear => exact Laws.RoundTrip.clear
  | putChar b => exact Laws.RoundTrip.putChar b
  | putString => exact Laws.RoundTrip.putString
  | clearDisplay => exact Laws.RoundTrip.clearDisplay
  | returnHome => exact Laws.RoundTrip.returnHome
  | entryModeRight => exact Laws.RoundTrip.entryModeRight
  | displayOff => exact Laws.RoundTrip.displayOff
  | displayOnCursorOff => exact Laws.RoundTrip.displayOnCursorOff
  | displayOnCursorSteady => exact Laws.RoundTrip.displayOnCursorSteady
  | displayOnCursorBlink => exact Laws.RoundTrip.displayOnCursorBlink
  | functionSet d n f => exact Laws.RoundTrip.functionSet d n f
  | force4A => exact Laws.RoundTrip.force4A
  | force4B => exact Laws.RoundTrip.force4B
  | dataWrite b => exact Laws.RoundTrip.dataWrite b
  | frame4 rs v => exact Laws.RoundTrip.frame4 rs v
  | frame8 rs v => exact Laws.RoundTrip.frame8 rs v
  | transmit rs b => exact Laws.RoundTrip.transmit rs b
  | sendCommand b => exact Laws.RoundTrip.sendCommand b
  | sendData b => exact Laws.RoundTrip.sendData b
  | raw4Send v => exact Laws.RoundTrip.raw4Send v
  | select rs => exact Laws.RoundTrip.select rs
  | driveData4 v => exact Laws.RoundTrip.driveData4 v
  | driveData8 v => exact Laws.RoundTrip.driveData8 v
  | frame v => exact Laws.RoundTrip.frame v
  | pulse => exact Laws.RoundTrip.pulse
  | delay n => exact Laws.RoundTrip.delay n

/-! ## A word is made of its fields -/

theorem bitNat_bitOf (w i : Nat) : bitNat (bitOf w i) = w / 2 ^ i % 2 := by
  obtain h | h := Nat.mod_two_eq_zero_or_one (w / 2 ^ i) <;> simp [bitNat, bitOf, h]

@[simp] theorem toNat_ofNat_field (w lo n : Nat) :
    (BitVec.ofNat n (field w lo n)).toNat = field w lo n := by
  simp [field]

/-- A nine-bit word is its RS bit and its byte (R82, R95). -/
theorem word9_eq {w : Nat} (hw : w < 512) :
    256 * bitNat (bitOf w 8) + (BitVec.ofNat 8 (field w 0 8)).toNat = w := by
  rw [bitNat_bitOf, toNat_ofNat_field, field]
  omega

/-- A request word is its `op` and its `arg` (R88). -/
theorem request_word_eq {w : Nat} (hw : w < 4096) : 256 * field w 8 4 + field w 0 8 = w := by
  simp only [field]
  omega

/-- A command byte of the form `001d nf00` is made of its three bits (R83, R84). -/
theorem function_set_byte_eq {b : Nat} (hhigh : field b 5 3 = 1) (hlow : field b 0 2 = 0)
    (hb : b < 256) :
    0x020 + 16 * bitNat (bitOf b 4) + 8 * bitNat (bitOf b 3) + 4 * bitNat (bitOf b 2) = b := by
  simp only [bitNat_bitOf, field] at *
  omega

/-! ## Each part of the decoder -/

/-- `w` is the word, in the format `f`, of the well-formed instruction `i`. -/
def IsWordOf (f : Format) (w : Nat) (i : Instr) : Prop :=
  i.wf = true ∧ i.format = f ∧ encode i = w

/-- The cursor states a TURN_ON word can name (R85, R90). -/
theorem decodeCursor_ok {cs : Nat} {i : Instr} (h : decodeCursor cs = .ok i) :
    IsWordOf .req12 (0x100 + cs) i := by
  unfold decodeCursor at h
  split at h <;> cases h <;> exact ⟨rfl, rfl, rfl⟩

/-- An operation whose `arg` must be zero has it zero (R90). -/
theorem decodeNoArg_ok {arg : Nat} {i j : Instr} (h : decodeNoArg arg j = .ok i) :
    arg = 0 ∧ i = j := by
  unfold decodeNoArg at h
  split at h
  · next harg => cases h; exact ⟨harg, rfl⟩
  · cases h

/-- A word whose `op` and zero `arg` are those of an instruction without operands. -/
theorem decodeNoArg_isWord {w : Nat} {i j : Instr} (hw : w < 4096)
    (hj : IsWordOf .req12 (256 * field w 8 4) j) (h : decodeNoArg (field w 0 8) j = .ok i) :
    IsWordOf .req12 w i := by
  obtain ⟨harg, rfl⟩ := decodeNoArg_ok h
  have hword := request_word_eq hw
  rw [harg, Nat.add_zero] at hword
  rwa [hword] at hj

/-- Every decoded request word is its instruction's (R88 to R90). -/
theorem decodeRequest_ok {w : Nat} {i : Instr} (hw : w < 4096) (h : decodeRequest w = .ok i) :
    IsWordOf .req12 w i := by
  have hword := request_word_eq hw
  unfold decodeRequest at h
  split at h
  case h_1 hop =>
    split at h
    · next hhigh =>
      have hcs : 0x100 + field w 0 2 = w := by simp only [field] at *; omega
      exact hcs ▸ decodeCursor_ok h
    · cases h
  case h_4 hop =>
    cases h
    refine ⟨rfl, rfl, ?_⟩
    rw [encode, toNat_ofNat_field]
    omega
  case h_7 => cases h
  all_goals
    next hop => exact decodeNoArg_isWord hw (by rw [hop]; exact ⟨rfl, rfl, rfl⟩) h

/-- Every decoded command byte is its instruction's wire word with RS = 0 (R83). -/
theorem decodeCommandByte_ok {b : Nat} {i : Instr} (hb : b < 256)
    (h : decodeCommandByte b = .ok i) : IsWordOf .w9 b i := by
  unfold decodeCommandByte at h
  split at h
  case h_10 =>
    split at h
    · next hfs => cases h; exact ⟨rfl, rfl, function_set_byte_eq hfs.1 hfs.2 hb⟩
    · cases h
  all_goals cases h; exact ⟨rfl, rfl, rfl⟩

/-- Every decoded wire word is its instruction's (R82, R83, R92). -/
theorem decodeWire_ok {w : Nat} {i : Instr} (hw : w < 512) (h : decodeWire w = .ok i) :
    IsWordOf .w9 w i := by
  have hword := word9_eq hw
  unfold decodeWire at h
  split at h
  · next hrs =>
    cases h
    rw [hrs] at hword
    exact ⟨rfl, rfl, hword⟩
  · next hrs =>
    rw [Bool.eq_false_of_not_eq_true hrs, toNat_ofNat_field] at hword
    have hbyte : field w 0 8 = w := by simpa [bitNat] using hword
    have hlt : field w 0 8 < 256 := Nat.mod_lt _ (by decide)
    exact hbyte ▸ decodeCommandByte_ok hlt h

/-- Every decoded 4-bit frame is its instruction's word (R81). -/
theorem decodeLatch4_ok {w : Nat} {i : Instr} (hw : w < 64) (h : decodeLatch4 w = .ok i) :
    IsWordOf .latch4 w i := by
  unfold decodeLatch4 at h
  split at h
  · cases h
  · next hrw =>
    cases h
    refine ⟨rfl, rfl, ?_⟩
    simp only [bitOf, decide_eq_true_eq] at hrw
    rw [encode, bitNat_bitOf, toNat_ofNat_field, field]
    omega

/-- Every decoded 8-bit frame is its instruction's word (R81). -/
theorem decodeLatch8_ok {w : Nat} {i : Instr} (hw : w < 1024) (h : decodeLatch8 w = .ok i) :
    IsWordOf .latch8 w i := by
  unfold decodeLatch8 at h
  split at h
  · cases h
  · next hrw =>
    cases h
    refine ⟨rfl, rfl, ?_⟩
    simp only [bitOf, decide_eq_true_eq] at hrw
    rw [encode, bitNat_bitOf, toNat_ofNat_field, field]
    omega

/-- A decoded image with a fixed RS bit is that bit and the byte of its instruction (R95). -/
theorem decodeFixedRs_ok {w : Nat} {rs : Level} {mk : Byte → Instr} {i : Instr} (hw : w < 512)
    (h : decodeFixedRs w rs mk = .ok i) : ∃ b, i = mk b ∧ 256 * bitNat rs + b.toNat = w := by
  unfold decodeFixedRs at h
  split at h
  · next hrs => cases h; exact ⟨_, rfl, hrs ▸ word9_eq hw⟩
  · cases h

/-- A word is the width of its format or it is refused. -/
theorem decode_ok {f : Format} {w : Nat} {i : Instr} (h : decode f w = .ok i) :
    w < 2 ^ f.width ∧ decodeBits f w = .ok i := by
  unfold decode at h
  split at h
  · next hw => exact ⟨hw, h⟩
  · cases h

/-- Every word of a format's width that the format decodes is its instruction's. -/
theorem decodeBits_ok {f : Format} {w : Nat} {i : Instr} (hw : w < 2 ^ f.width)
    (h : decodeBits f w = .ok i) : IsWordOf f w i := by
  cases f with
  | req12 => exact decodeRequest_ok hw h
  | w9 => exact decodeWire_ok hw h
  | latch4 => exact decodeLatch4_ok hw h
  | latch8 => exact decodeLatch8_ok hw h
  | cfg3 | imageSelect =>
    cases h
    refine ⟨rfl, rfl, ?_⟩
    simp only [encode, bitNat_bitOf, Format.width] at *
    omega
  | imageTransmit => cases h; exact ⟨rfl, rfl, word9_eq hw⟩
  | imageSendCommand | imageRaw4Send =>
    obtain ⟨b, rfl, hb⟩ := decodeFixedRs_ok hw h
    exact ⟨rfl, rfl, by simpa [encode, bitNat] using hb⟩
  | imageSendData =>
    obtain ⟨b, rfl, hb⟩ := decodeFixedRs_ok hw h
    exact ⟨rfl, rfl, hb⟩
  | imageDriveData4 | imageDriveData8 | imageFrame =>
    cases h
    exact ⟨rfl, rfl, Nat.mod_eq_of_lt hw⟩
  | imagePulse =>
    simp only [decodeBits] at h
    split at h
    · next hpulse => cases h; exact ⟨rfl, rfl, hpulse.symm⟩
    · cases h
  | imageDelay => cases h; exact ⟨decide_eq_true hw, rfl, rfl⟩

/-- Settles O2: the word has its format's width, and each format's decoder answers the instruction of that word. -/
theorem encodeOfDecodeIsTheWord : Obligations.EncodeOfDecodeIsTheWord := by
  unfold Obligations.EncodeOfDecodeIsTheWord
  intro f w i h
  obtain ⟨hw, hbits⟩ := decode_ok h
  exact decodeBits_ok hw hbits

end Sys2Proof
end

section
/-! PROOFS. The request words the host may use are the words of the public operations, and every other is refused (R89, R90, R119). -/

namespace Sys2Proof.Machine

/-- A request word is accepted as the public operation whose word it is, and as no other (R88 to R90). -/
theorem hostRequest_eq_some_iff {w : BitVec 12} {i : Instr} :
    hostRequest w = some i ↔ i.isPublic = true ∧ encode i = w.toNat := by
  constructor
  · intro h
    unfold hostRequest at h
    split at h
    · cases h
    · next j hd =>
      obtain ⟨-, -, hword⟩ := encodeOfDecodeIsTheWord _ _ _ hd
      split at h
      · next hpub => cases h; exact ⟨hpub, hword⟩
      · cases h
  · rintro ⟨hpub, hword⟩
    have hw : requestWord i = w := by simp [requestWord, hword]
    exact hw ▸ hostRequest_requestWord hpub

/-- The numbers of the request words that name a public operation (R89). -/
def UsableRequest (w : Nat) : Prop :=
  w = 0x100 ∨ w = 0x101 ∨ w = 0x102 ∨ w = 0x200 ∨ w = 0x300 ∨ (0x400 ≤ w ∧ w < 0x500) ∨ w = 0x500

/-- The usable words are those of the public operations. -/
theorem usableRequest_iff_encode {w : Nat} :
    UsableRequest w ↔ ∃ i : Instr, i.isPublic = true ∧ encode i = w := by
  constructor
  · rintro (rfl | rfl | rfl | rfl | rfl | ⟨hge, hlt⟩ | rfl)
    · exact ⟨.turnOn .off, rfl, rfl⟩
    · exact ⟨.turnOn .blinkOn, rfl, rfl⟩
    · exact ⟨.turnOn .blinkOff, rfl, rfl⟩
    · exact ⟨.turnOff, rfl, rfl⟩
    · exact ⟨.clear, rfl, rfl⟩
    · refine ⟨.putChar (BitVec.ofNat 8 (w - 0x400)), rfl, ?_⟩
      rw [encode, BitVec.toNat_ofNat]
      omega
    · exact ⟨.putString, rfl, rfl⟩
  · rintro ⟨i, hpub, rfl⟩
    cases i with
    | turnOn cs => cases cs <;> simp [UsableRequest, encode, CursorState.code]
    | turnOff | clear | putString => simp [UsableRequest, encode]
    | putChar b =>
      have hb := b.isLt
      simp only [UsableRequest, encode]
      omega
    | _ => simp [Instr.isPublic] at hpub

/-- The words that are not usable, and no others, are refused (R90). -/
theorem hostRequest_eq_none_iff {w : BitVec 12} :
    hostRequest w = none ↔ ¬ UsableRequest w.toNat := by
  rw [usableRequest_iff_encode, Option.eq_none_iff_forall_ne_some, not_exists]
  exact forall_congr' fun i => not_congr hostRequest_eq_some_iff

/-- A field cut out of a word is the field of its number (R15). -/
theorem toNat_extractLsb' {n : Nat} (w : BitVec n) (lo k : Nat) :
    (w.extractLsb' lo k).toNat = field w.toNat lo k := by
  simp [field, Nat.shiftRight_eq_div_pow]

/-- Settles O4: the reserved words are those that are not usable, and each usable word is its operation's. -/
theorem reservedRequestWordsAreRefused : Obligations.ReservedRequestWordsAreRefused := by
  unfold Obligations.ReservedRequestWordsAreRefused
  intro w
  have hw := w.isLt
  refine ⟨?_, by rintro rfl; rfl, by rintro rfl; rfl, by rintro rfl; rfl, by rintro rfl; rfl,
    by rintro rfl; rfl, ?_, by rintro rfl; rfl⟩
  · rw [hostRequest_eq_none_iff]
    simp only [ne_eq, ← BitVec.toNat_inj, toNat_extractLsb', BitVec.toNat_ofNat, field,
      UsableRequest]
    omega
  · intro hop
    refine hostRequest_eq_some_iff.2 ⟨rfl, ?_⟩
    simp only [← BitVec.toNat_inj, toNat_extractLsb', BitVec.toNat_ofNat, field] at hop
    simp only [encode, toNat_extractLsb', field]
    omega

end Sys2Proof.Machine
end

section
/-! PROOFS. The step of an idle block with an item it does not accept, and the step of a busy block, which does not see the port (R24, R88, R90, R203, R226). -/

namespace Sys2Proof.Machine

/-- A refused word is taken off the port and nothing else happens (R90, R119). -/
theorem step_refused_request {s : State} {w : BitVec 12} {m : Memory} {rest : List Presented}
    (hs : s.seq = .idle) (hp : s.port = .request w m :: rest) (hr : hostRequest w = none) :
    step s = .next { s with port := rest } := by
  simp [step, fetch, takePresented, hs, hp, hr]

/-- Outside READY every request is taken off the port and nothing else happens (R88, R203). -/
theorem step_request_not_ready {s : State} {w : BitVec 12} {m : Memory} {rest : List Presented}
    (hs : s.seq = .idle) (hl : s.life ≠ .ready) (hp : s.port = .request w m :: rest) :
    step s = .next { s with port := rest } := by
  cases hr : hostRequest w with
  | none => exact step_refused_request hs hp hr
  | some i => simp [step, fetch, takePresented, hs, hp, hr, State.isReady, hl]

/-- A release is taken off the port and nothing else happens (R226). -/
theorem step_teardown {s : State} {rest : List Presented} (hs : s.seq = .idle)
    (hp : s.port = .teardown :: rest) : step s = .next { s with port := rest } := by
  simp [step, fetch, takePresented, hs, hp]

/-- With nothing presented an idle block holds its state (R8, R24). -/
theorem step_idle_nothing {s : State} (hs : s.seq = .idle) (hp : s.port = []) :
    step s = .next s := by
  simp [step, fetch, takePresented, hs, hp]

/-- Settles O8: one step of an idle block for each kind of item it does not accept. -/
theorem whatIsNotAcceptedChangesNothing : Obligations.WhatIsNotAcceptedChangesNothing := by
  unfold Obligations.WhatIsNotAcceptedChangesNothing
  intro s hs
  exact ⟨fun _ _ _ hp hr => step_refused_request hs hp hr,
    fun _ _ _ hl hp => step_request_not_ready hs hl hp,
    fun _ hp => step_teardown hs hp, fun hp => step_idle_nothing hs hp⟩

/-! ## A busy block -/

/-- A busy block has an operation in SEQ (R28). -/
theorem exists_running_of_busy {s : State} (h : s.busy = true) : ∃ i k, s.seq = .run i k := by
  cases hs : s.seq with
  | idle => exact absurd hs (of_decide_eq_true h)
  | run i k => exact ⟨i, k, rfl⟩

/-- An event of a sequence does not depend on the port. -/
theorem exec_sequence_withPort {i : Instr} {s t : State} {k : Nat} (hi : isSequence i = true)
    (hs : s.seq = .run i k) (h : exec i s = .next t) (p : List Presented) :
    exec i { s with port := p } = .next { t with port := p } := by
  obtain ⟨hidle, -⟩ | ⟨hidle, -⟩ | ⟨k', m, hs', hw, hm, -⟩ := exec_next_cases hi h
  · exact absurd (hs.symm.trans hidle) Seq.noConfusion
  · exact absurd (hs.symm.trans hidle) Seq.noConfusion
  · have hsame : sequenceOf i { s with port := p } = sequenceOf i s := sequenceOf_congr hi rfl rfl
    rw [exec_emits hi hw hs' hm] at h
    cases h
    rw [exec_emits (s := { s with port := p }) hi (widthFits_congr (by rfl) hw) hs'
      (by rwa [hsame]), hsame]
    rfl

/-- An event of PUT_STRING, and the fetch after a byte's last one, do not depend on the port. -/
theorem exec_putString_withPort {s t : State} {k : Nat} (hs : s.seq = .run .putString k)
    (h : exec .putString s = .next t) (p : List Presented) :
    exec .putString { s with port := p } = .next { t with port := p } := by
  obtain ⟨hidle, -⟩ | ⟨hidle, -⟩ | ⟨-, hidle, -⟩ | ⟨k', m, hs', hm, hev⟩ := exec_putString_cases h
  · exact absurd (hs.symm.trans hidle) Seq.noConfusion
  · exact absurd (hs.symm.trans hidle) Seq.noConfusion
  · exact absurd (hs.symm.trans hidle) Seq.noConfusion
  · obtain ⟨hk, rfl⟩ | ⟨hk, hread, rfl⟩ | ⟨hk, c, hread, hc, rfl⟩ := hev
    · exact exec_putString_emits (s := { s with port := p }) hs' hm hk
    · exact (exec_putString_ends_char (s := { s with port := p }) hs' hm hk).trans
        (fetchChar_sentinel hread)
    · exact (exec_putString_ends_char (s := { s with port := p }) hs' hm hk).trans
        (fetchChar_char hread hc)

/-- Settles O9: a step of a busy block executes the operation in SEQ, which leaves the port as it is and does not depend on it. -/
theorem presentedItemsWaitWhileBusy : Obligations.PresentedItemsWaitWhileBusy := by
  unfold Obligations.PresentedItemsWaitWhileBusy
  intro s hbusy
  obtain ⟨i, k, hs⟩ := exists_running_of_busy hbusy
  have hexec : ∀ p : List Presented, step { s with port := p } = exec i { s with port := p } :=
    fun p => step_running (s := { s with port := p }) hs
  rw [step_running hs]
  refine ⟨?_, ?_⟩
  · intro t h
    obtain ⟨-, -, -, -, hport, -⟩ := oneStepFrame i s t (ne_construct_of_running hs h) h
    exact hport
  · intro p t h
    rw [hexec p]
    obtain hseq | rfl := isSequence_or_putString (ne_construct_of_running hs h)
    · exact exec_sequence_withPort hseq hs h p
    · exact exec_putString_withPort hs h p

end Sys2Proof.Machine
end

section
/-! PROOFS. The transmissions of the operations at Level B, their command bytes, and the operand forms: the function-set formula, the nibbles and the bit test (R83 to R87, R161, R162). -/

namespace Sys2Proof.Machine

/-! ## Level B of transmissions -/

/-- Level B of a list of transmissions is that list (R160, R162). -/
theorem levelB_txs (p : Params) (dl : Bool) (l : List (Level × Byte)) {q : Pins}
    (hq : q.e = false) :
    levelB (levelW (widthOf dl) q (txsEvents p dl l)) =
      some (l.map (fun x => BItem.tx x.1 x.2)) := by
  induction l generalizing q with
  | nil => rfl
  | cons x l ih =>
    rw [txsEvents_cons, widthOf, levelB_tx p dl x.1 x.2 q hq]
    rw [widthOf] at ih
    rw [ih (txPins_e ..)]
    rfl

/-- A delay before a transmission stands as a wait before it (R112, R162). -/
theorem levelB_delay_txs (p : Params) (dl : Bool) (n : Nat) (x : Level × Byte)
    (l : List (Level × Byte)) {q : Pins} (hq : q.e = false) :
    levelB (levelW (widthOf dl) q (.delay n :: txsEvents p dl (x :: l))) =
      some (.wait n :: (x :: l).map (fun x => BItem.tx x.1 x.2)) := by
  have htail := levelB_txs p dl (x :: l) hq
  rw [txsEvents_cons, widthOf, levelW_tx p dl x.1 x.2 q hq] at htail
  rw [txsEvents_cons, widthOf, levelW, hq, levelW_tx p dl x.1 x.2 q hq]
  exact congrArg (Option.map (BItem.wait n :: ·)) htail

/-! ## The closed set -/

/-- The command bytes the block may send (R83). -/
def closedSet : List Byte :=
  [0x01#8, 0x02#8, 0x06#8, 0x08#8, 0x0C#8, 0x0E#8, 0x0F#8, 0x20#8, 0x24#8, 0x28#8,
    0x2C#8, 0x30#8, 0x34#8, 0x38#8, 0x3C#8, 0x33#8, 0x32#8]

/-- A transmission the operation `i` may make: a data byte from PUT_CHAR and PUT_STRING only, a command byte of the closed set (R83). -/
def MaySend (i : Instr) (x : Level × Byte) : Prop :=
  if x.1 then (∃ c, i = .putChar c) ∨ i = .putString else x.2 ∈ closedSet

/-- Every byte of a cursor state is in the closed set (R85, R130). -/
theorem dc_mem_closedSet (cs : CursorState) : dc cs ∈ closedSet := by
  cases cs <;> decide

/-- Every byte INIT sends is in the closed set (R84, R111). -/
theorem initBytes_subset_closedSet (c : Cfg) : initBytes c ⊆ closedSet := by
  obtain ⟨dl, n, f⟩ := c
  revert dl n f
  decide

/-- A public operation emits transmissions it may make (R130, R134, R140, R180, R182). -/
theorem public_maySend {i : Instr} (hi : i.isPublic = true) (s : State) :
    ∃ l, eventsOf (sequenceOf i s) = txsEvents s.par s.cfg.dl l ∧ ∀ x ∈ l, MaySend i x := by
  cases i with
  | turnOn cs =>
    exact ⟨[(false, dc cs)], eventsOf_sendCommand ..,
      List.forall_mem_singleton.2 (dc_mem_closedSet cs)⟩
  | turnOff =>
    exact ⟨[(false, 0x08#8)], eventsOf_sendCommand .., by simp [MaySend, closedSet]⟩
  | clear =>
    refine ⟨[(false, 0x01#8), (false, 0x02#8)], ?_, ?_⟩
    · rw [sequenceOf, seqClear, eventsOf_append, eventsOf_sendCommand, eventsOf_sendCommand,
        ← txsEvents_append]
      rfl
    · simp [MaySend, closedSet]
  | putChar b =>
    exact ⟨[(true, b)], eventsOf_sendData .., List.forall_mem_singleton.2 (.inl ⟨b, rfl⟩)⟩
  | putString =>
    exact ⟨[(true, s.byte)], eventsOf_sendData .., List.forall_mem_singleton.2 (.inr rfl)⟩
  | _ => simp [Instr.isPublic] at hi

/-- INIT sends at least one byte (R111). -/
theorem initBytes_eq_cons (c : Cfg) : ∃ b bs, initBytes c = b :: bs := by
  obtain ⟨_ | _, n, f⟩ := c <;> exact ⟨_, _, rfl⟩

/-- Level B of INIT is the power-on wait and its command bytes (R111). -/
theorem levelB_init (s : State) {q : Pins} (hq : q.e = false) :
    levelB (levelW s.width q (eventsOf (sequenceOf .init s))) =
      some (.wait s.par.tPowerOn :: (initBytes s.cfg).map (BItem.tx false)) := by
  rw [sequenceOf, events_init, initEvents_eq]
  obtain ⟨b, bs, hb⟩ := initBytes_eq_cons s.cfg
  rw [hb]
  simpa [State.width, Function.comp_def] using
    levelB_delay_txs s.par s.cfg.dl s.par.tPowerOn (false, b) (bs.map (false, ·)) hq

/-- Settles O53: a public operation's transmissions are its Level B items, and INIT's are the command bytes of its six steps. -/
theorem commandBytesAreInTheClosedSet : Obligations.CommandBytesAreInTheClosedSet := by
  unfold Obligations.CommandBytesAreInTheClosedSet
  rintro i s q (hpub | rfl) hq
  · obtain ⟨l, hev, hl⟩ := public_maySend hpub s
    refine ⟨_, hev ▸ levelB_txs s.par s.cfg.dl l hq, ?_⟩
    intro rs b hmem
    obtain ⟨x, hx, hitem⟩ := List.mem_map.1 hmem
    cases hitem
    exact hl x hx
  · refine ⟨_, levelB_init s hq, ?_⟩
    intro rs b hmem
    obtain hwait | hmem := List.mem_cons.1 hmem
    · cases hwait
    · obtain ⟨b', hb, hitem⟩ := List.mem_map.1 hmem
      cases hitem
      exact initBytes_subset_closedSet s.cfg hb

/-! ## The operand forms -/

/-- Settles O5: the formula is the table, row by row. -/
theorem functionSetFormulaIsTheTable : Obligations.FunctionSetFormulaIsTheTable := by
  unfold Obligations.FunctionSetFormulaIsTheTable
  exact ⟨fs_eq_table .., fs_eq_table .., fs_eq_table .., fs_eq_table .., fs_eq_table ..,
    fs_eq_table .., fs_eq_table .., fs_eq_table ..⟩

/-- The mask 0xF is the remainder by 16 (R86). -/
theorem and_0xF (n : Nat) : n &&& 0xF = n % 16 := Nat.and_two_pow_sub_one_eq_mod n 4

/-- The high nibble as a number (R86). -/
theorem toNat_hi (b : Byte) : (hi b).toNat = b.toNat / 16 := by
  have hb := b.isLt
  simp only [hi, BitVec.toNat_setWidth, BitVec.toNat_and, BitVec.toNat_ushiftRight,
    Nat.shiftRight_eq_div_pow, BitVec.reduceToNat, and_0xF]
  omega

/-- The low nibble as a number (R86). -/
theorem toNat_lo (b : Byte) : (lo b).toNat = b.toNat % 16 := by
  simp [lo, and_0xF]

/-- Settles O6: the nibbles as numbers, the byte of its nibbles, and the bit test. -/
theorem nibblesAndBitsOfAByte : Obligations.NibblesAndBitsOfAByte := by
  unfold Obligations.NibblesAndBitsOfAByte
  exact fun b => ⟨byte_of_nibbles b, toNat_hi b, toNat_lo b, fun i => bit_eq_getLsbD b i.val⟩

/-- Settles O3: each word is evaluated by its format's decoder. -/
theorem tableWordsDecode : Obligations.TableWordsDecode := by
  unfold Obligations.TableWordsDecode
  exact ⟨rfl, rfl, rfl, rfl, rfl, rfl, rfl, rfl⟩

end Sys2Proof.Machine
end

section
/-! PROOFS. A whole operation as `Emitted`: what a sequence of events leaves when it is stepped to its end, said once, and then for one transmission (R8, R24, R34, R152, R164). -/

namespace Sys2Proof.Machine

/-! ## Every sequence of events -/

/-- Emitting a list of events and ending changes the fields `Emitted` names and no other (R34). -/
theorem emitted_emitAll (ms : List Micro) (l : Life) (s : State) :
    Emitted (eventsOf ms) (emitAll ms s).pins (emitAll ms s).byte { s with life := l }
      { emitAll ms s with seq := .idle, life := l } :=
  ⟨by simp, le_emitAll_time ms s⟩

/-- A sequence that can start is stepped to its end: its events are emitted and nothing else is changed but, by INIT, LIFE (R8, R24, R110). -/
theorem sequence_completes {i : Instr} {s : State} {es : List Event} {pins : Pins} {byte : Byte}
    (hi : isSequence i = true) (hw : widthFits i s) (hs : CanStart i s)
    (hev : eventsOf (sequenceOf i s) = es) (hpos : 0 < es.length)
    (hpins : es.foldl (fun q e => e.drive q) s.pins = pins)
    (hbyte : (emitAll (sequenceOf i s) s).byte = byte) :
    ∃ t u, exec i s = .next t ∧ run (stepsLeft s es.length) t = .next u ∧
      Emitted es pins byte { s with life := if i = .init then .ready else s.life } u := by
  have hlen : (sequenceOf i s).length = es.length := by rw [← hev, length_eventsOf]
  obtain ⟨n, hn⟩ := Nat.exists_eq_add_one.2 hpos
  obtain ⟨t, hx, hrun⟩ := exec_then_run (n := n) hi hw hs (by rw [hlen, hn])
  rw [doneOf_eq, emitAll_life] at hrun
  refine ⟨t, _, hx, hn ▸ hrun, ?_⟩
  rw [← hpins, ← hbyte, ← hev, ← emitAll_pins]
  exact emitted_emitAll ..

/-! ## One transmission -/

/-- An operation whose events are one transmission leaves PIN as R164 gives it and its byte in BYTE (R25, R152). -/
theorem transmission_completes {i : Instr} {s : State} {dl : Bool} {rs : Level} {b : Byte}
    (hi : isSequence i = true) (hinit : i ≠ .init) (hw : widthFits i s) (hs : CanStart i s)
    (hseq : sequenceOf i s = seqTransmit s.par dl rs b) :
    ∃ t u, exec i s = .next t ∧ run (stepsLeft s (txCount dl)) t = .next u ∧
      Emitted (txEvents s.par dl rs b) (txPins s.par dl rs b s.pins) b s u := by
  have hlen : (txEvents s.par dl rs b).length = txCount dl := length_txEvents ..
  have hpos : 0 < (txEvents s.par dl rs b).length := by
    have h := one_lt_txCount dl
    omega
  have hbyte : (emitAll (sequenceOf i s) s).byte = b := by
    rw [emitAll_byte, hseq, foldl_tx_byte]
  have hdone := sequence_completes hi hw hs (by rw [hseq, events_transmit]) hpos
    (foldl_tx_pins s.par dl rs b s.pins) hbyte
  rwa [hlen, if_neg hinit] at hdone

/-! ## The wire words -/

/-- The wire words without an operand, each with its command byte (R83). -/
def CommandWord (i : Instr) (b : Byte) : Prop :=
  (i, b) ∈ [(Instr.clearDisplay, 0x01#8), (.returnHome, 0x02#8), (.entryModeRight, 0x06#8),
    (.displayOff, 0x08#8), (.displayOnCursorOff, 0x0C#8), (.displayOnCursorSteady, 0x0E#8),
    (.displayOnCursorBlink, 0x0F#8)]

/-- Each such word is the command transmission of its byte at either bus width (R116, R131 to R135, R141, R142). -/
theorem CommandWord.is_sendCommand {i : Instr} {b : Byte} (h : CommandWord i b) (s : State) :
    isSequence i = true ∧ i ≠ .init ∧ widthFits i s ∧
      sequenceOf i s = seqSendCommand s.par s.cfg.dl b := by
  simp only [CommandWord, List.mem_cons, Prod.mk.injEq, List.not_mem_nil, or_false] at h
  obtain ⟨rfl, rfl⟩ | ⟨rfl, rfl⟩ | ⟨rfl, rfl⟩ | ⟨rfl, rfl⟩ | ⟨rfl, rfl⟩ | ⟨rfl, rfl⟩ | ⟨rfl, rfl⟩ := h
  all_goals exact ⟨rfl, nofun, ⟨nofun, nofun⟩, rfl⟩

/-- Settles O30: the word's events are one transmission, which is stepped to its end. -/
theorem commandWordsComplete : Obligations.CommandWordsComplete := by
  unfold Obligations.CommandWordsComplete
  intro i b s hword hs
  obtain ⟨hi, hinit, hw, hseq⟩ := CommandWord.is_sendCommand hword s
  exact transmission_completes hi hinit hw hs hseq

/-- Settles O31: the formula's byte is the table's, and its transmission is stepped to its end. -/
theorem functionSetCompletes : Obligations.FunctionSetCompletes := by
  unfold Obligations.FunctionSetCompletes
  intro d n f s hs
  rw [← fs_eq_table]
  exact transmission_completes rfl nofun ⟨nofun, nofun⟩ hs rfl

/-- Settles O32: the raw path's events are the 4-bit command transmission, at the bus width CFG gives. -/
theorem rawFourBitPathCompletes : Obligations.RawFourBitPathCompletes := by
  unfold Obligations.RawFourBitPathCompletes
  intro i b s hform hdl hs
  have hraw : isSequence i = true ∧ i ≠ .init ∧ widthFits i s ∧
      sequenceOf i s = seqTransmit s.par false false b := by
    obtain ⟨rfl, rfl⟩ | ⟨rfl, rfl⟩ | rfl := hform
    all_goals exact ⟨rfl, nofun, ⟨fun _ => hdl, nofun⟩, rfl⟩
  obtain ⟨hi, hinit, hw, hseq⟩ := hraw
  exact transmission_completes hi hinit hw hs hseq

end Sys2Proof.Machine
end

section
/-! PROOFS. Construction and INIT: what a checked construction begins, its first two events, INIT stepped to its end and at Level B (R33, R110 to R113, R222). -/

namespace Sys2Proof.Machine

/-! ## The construction -/

/-- Settles O14: both tests pass, and the new state is what `beginInstance` writes. -/
theorem constructBeginsTheInstance : Obligations.ConstructBeginsTheInstance := by
  unfold Obligations.ConstructBeginsTheInstance
  intro d n f s hs hlen hnodup
  have hw : s.pinsArg.data.length = widthOf d := hlen
  have hd : s.pinsArg.distinct = true := decide_eq_true hnodup
  simp [exec, execConstruct, hs, hw, hd, beginInstance]

/-! ## The first two events -/

/-- A step that emits an event before the last of a sequence (R24). -/
theorem step_emits_of_lt {i : Instr} {s : State} {k : Nat} {m : Micro} (hi : isSequence i = true)
    (hw : widthFits i s) (hs : s.seq = .run i k) (hm : (sequenceOf i s)[k]? = some m)
    (hk : k + 1 < (sequenceOf i s).length) :
    step s = .next { emit m s with seq := .run i (k + 1) } := by
  obtain ⟨_, hget⟩ := List.getElem?_eq_some_iff.1 hm
  rw [step_running hs, exec_running hi hw hs, advance_of_lt hk, hget]

/-- INIT begins with the power-on settle and the settle of its first transmission, whichever that is (R111, R112). -/
theorem seqInit_begins (p : Params) (c : Cfg) :
    ∃ m m' ms, seqInit p c = m :: m' :: ms ∧
      m.ev = .delay p.tPowerOn ∧ m'.ev = .delay p.tSettle := by
  obtain ⟨_ | _, n, f⟩ := c <;> exact ⟨_, _, _, rfl, rfl, rfl⟩

/-- Settles O19: the constructed block is at (INIT, 0), and its first two steps emit the first two events of INIT. -/
theorem powerOnSettleComesFirst : Obligations.PowerOnSettleComesFirst := by
  unfold Obligations.PowerOnSettleComesFirst
  intro d n f s t hx hlife
  obtain ⟨-, ⟨-, rfl⟩ | ⟨-, -, rfl⟩⟩ := exec_construct_cases hx
  · exact Life.noConfusion hlife
  let t := beginInstance d n f s
  have hlong : 2 < (seqInit t.par t.cfg).length := by
    rw [length_seqInit]
    cases t.cfg.dl <;> decide
  obtain ⟨m, m', ms, hinit, hm, hm'⟩ := seqInit_begins t.par t.cfg
  have hget : (seqInit t.par t.cfg)[0]? = some m := by rw [hinit]; rfl
  have hget' : (seqInit t.par t.cfg)[1]? = some m' := by rw [hinit]; rfl
  let u : State := { emit m t with seq := .run .init 1 }
  have hfirst : step t = .next u :=
    step_emits_of_lt rfl ⟨nofun, nofun⟩ rfl hget (Nat.lt_of_succ_lt hlong)
  have hsecond : step u = .next { emit m' u with seq := .run .init 2 } :=
    step_emits_of_lt rfl ⟨nofun, nofun⟩ rfl hget' hlong
  have hu : u.trace = [.delay s.par.tPowerOn] := congrArg (fun e => [e]) hm
  refine ⟨u, _, hfirst, hsecond, hu, ?_⟩
  show u.trace ++ [m'.ev] = _
  rw [hu, hm']
  rfl

/-! ## INIT to its end -/

/-- A transmission drives over every line the one before it drove (R164). -/
theorem txPins_txPins (p : Params) (dl : Bool) (rs rs' : Level) (b b' : Byte) (q : Pins) :
    txPins p dl rs b (txPins p dl rs' b' q) = txPins p dl rs b q := by
  cases dl <;> rfl

/-- The pins after transmissions are as the last one leaves them (R164). -/
theorem foldl_txs_pins (p : Params) (dl : Bool) (l : List (Level × Byte)) (x : Level × Byte)
    (q : Pins) :
    (txsEvents p dl (l ++ [x])).foldl (fun q e => e.drive q) q = txPins p dl x.1 x.2 q := by
  induction l generalizing q with
  | nil => rw [List.nil_append, txsEvents_cons, List.foldl_append, foldl_tx_pins]; rfl
  | cons y l ih =>
    rw [List.cons_append, txsEvents_cons, List.foldl_append, foldl_tx_pins, ih, txPins_txPins]

/-- INIT sends 0x06 last (R111, R116). -/
theorem initBytes_eq_append (c : Cfg) : ∃ bs, initBytes c = bs ++ [0x06#8] :=
  ⟨(if c.dl then [] else [0x33#8, 0x32#8]) ++ [fsTable c.dl c.n c.f, 0x01#8, 0x02#8, 0x0C#8],
    by simp [initBytes]⟩

/-- The pins after INIT are as the transmission of 0x06 leaves those before it (R33, R164). -/
theorem foldl_init_pins (p : Params) (c : Cfg) (q : Pins) :
    (initEvents p c).foldl (fun q e => e.drive q) q = txPins p c.dl false 0x06#8 q := by
  obtain ⟨bs, hbs⟩ := initBytes_eq_append c
  rw [initEvents_eq, hbs, List.map_append, List.foldl_append]
  exact foldl_txs_pins p c.dl (bs.map (false, ·)) (false, 0x06#8) q

/-- Settles O21: INIT is stepped to its end, 71 or 120 events, PIN and BYTE as its last transmission leaves them. -/
theorem initCompletes : Obligations.InitCompletes := by
  unfold Obligations.InitCompletes
  intro s hs
  have hev : eventsOf (sequenceOf .init s) = initEvents s.par s.cfg := events_init ..
  have hlen : (initEvents s.par s.cfg).length = initCount s.cfg.dl := by
    rw [← events_init, length_eventsOf, length_seqInit]
  have hdone := sequence_completes (i := .init) rfl ⟨nofun, nofun⟩ hs hev
    (List.length_pos_of_ne_nil (List.cons_ne_nil _ _)) (foldl_init_pins s.par s.cfg s.pins)
    (emitAll_init_byte s.par s)
  rwa [hlen, if_pos rfl] at hdone

/-! ## Level B -/

/-- Settles O52: the wait and the command bytes of INIT, in order. -/
theorem initAtLevelB : Obligations.InitAtLevelB := by
  unfold Obligations.InitAtLevelB
  intro s q hq
  rw [levelB_init s hq, initBytes, List.map_append, apply_ite (List.map (BItem.tx false))]
  rfl

end Sys2Proof.Machine
end

section
/-! PROOFS. The forms that require one bus width stop on the other (R113, R155, R156, R158). -/

namespace Sys2Proof.Machine

/-- A form that needs four Data lines stops on an 8-bit bus (R113, R156, R158). -/
theorem exec_needsWidth4_stops {i : Instr} {s : State} (hi : needsWidth4 i = true)
    (hdl : s.cfg.dl = true) : exec i s = .refused .wrongBusWidth := by
  cases i with
  | force4A => simp [exec, execForce4A, hdl]
  | force4B => simp [exec, execForce4B, hdl]
  | raw4Send v => simp [exec, execRaw4Send, hdl]
  | frame4 rs v => simp [exec, execFrame4, hdl]
  | driveData4 v => simp [exec, execDriveData4, hdl]
  | _ => simp [needsWidth4] at hi

/-- A form that needs eight Data lines stops on a 4-bit bus (R155, R158). -/
theorem exec_needsWidth8_stops {i : Instr} {s : State} (hi : needsWidth8 i = true)
    (hdl : s.cfg.dl = false) : exec i s = .refused .wrongBusWidth := by
  cases i with
  | frame8 rs v => simp [exec, execFrame8, hdl]
  | driveData8 v => simp [exec, execDriveData8, hdl]
  | _ => simp [needsWidth8] at hi

/-- Settles O42: each form needs the bus width that CFG does not give. -/
theorem wrongBusWidthStops : Obligations.WrongBusWidthStops := by
  unfold Obligations.WrongBusWidthStops
  intro s
  refine ⟨fun hdl => ?_, fun hdl => ?_⟩
  · exact ⟨exec_needsWidth4_stops rfl hdl, exec_needsWidth4_stops rfl hdl,
      fun _ => exec_needsWidth4_stops rfl hdl, fun _ _ => exec_needsWidth4_stops rfl hdl,
      fun _ => exec_needsWidth4_stops rfl hdl⟩
  · exact ⟨fun _ _ => exec_needsWidth8_stops rfl hdl, fun _ => exec_needsWidth8_stops rfl hdl⟩

end Sys2Proof.Machine
end

section
/-! PROOFS. Display control: TURN_ON and TURN_OFF stepped to their ends, and the three cursor commands of R136 as calls of the host (R130, R134, R136). -/

namespace Sys2Proof.Machine

/-- Settles O22: the cursor state's byte is one command transmission, which is stepped to its end. -/
theorem turnOnCompletes : Obligations.TurnOnCompletes := by
  unfold Obligations.TurnOnCompletes
  intro cs s hs
  rw [← dc_eq_cursorByte]
  exact transmission_completes rfl nofun ⟨nofun, nofun⟩ hs rfl

/-- Settles O23: the one command transmission of 0x08 is stepped to its end. -/
theorem turnOffCompletes : Obligations.TurnOffCompletes := by
  unfold Obligations.TurnOffCompletes
  intro s hs
  exact transmission_completes rfl nofun ⟨nofun, nofun⟩ hs rfl

/-- A call takes its acceptance and the events of its transmissions (R24, R167). -/
theorem HostCall.steps_eq (p : Params) (dl : Bool) (c : HostCall) :
    c.steps p dl = 1 + c.txs.length * txCount dl := by
  rw [HostCall.steps, length_txsEvents]

/-- The three calls of R136. -/
def cursorCalls : List HostCall := [.turnOn .off, .turnOff, .turnOn .blinkOn]

/-- Each of the three calls of R136 takes its acceptance and one transmission (R24, R130, R134). -/
theorem cursorCalls_steps (p : Params) (dl : Bool) :
    (cursorCalls.map (HostCall.steps p dl)).sum = 3 * (1 + txCount dl) := by
  simp only [cursorCalls, List.map_cons, List.map_nil, List.sum_cons, List.sum_nil,
    HostCall.steps_eq, HostCall.txs, List.length_singleton]
  omega

/-- Settles O56: the three requests are calls of the host, stepped through in order, and the transmissions they emit are the items of Level B. -/
theorem cursorCommandsAreStateless : Obligations.CursorCommandsAreStateless := by
  unfold Obligations.CursorCommandsAreStateless
  intro s hs hl hp
  have hwf : ∀ c ∈ cursorCalls, c.wf := by simp [cursorCalls, HostCall.wf]
  obtain ⟨u, hrun, hu⟩ := run_calls hwf hs hl hp
  rw [cursorCalls_steps] at hrun
  refine ⟨u, _, hrun, hu.seq, hu.trace, ?_⟩
  intro q hq
  exact levelB_txs s.par s.cfg.dl (cursorCalls.flatMap HostCall.txs) hq

end Sys2Proof.Machine
end

section
/-! PROOFS. CLEAR stepped to its end: two whole command transmissions (R140, R143). -/

namespace Sys2Proof.Machine

/-- CLEAR's events are the command transmission of 0x01 and then that of 0x02 (R140, R143). -/
theorem eventsOf_clear (p : Params) (dl : Bool) :
    eventsOf (seqClear p dl) = txEvents p dl false 0x01#8 ++ txEvents p dl false 0x02#8 := by
  rw [seqClear, eventsOf_append, seqSendCommand, seqSendCommand, events_transmit, events_transmit]
  rfl

/-- The second transmission of CLEAR leaves 0x02 in BYTE (R25, R140). -/
theorem emitAll_clear_byte (p : Params) (dl : Bool) (s : State) :
    (emitAll (seqClear p dl) s).byte = 0x02#8 := by
  rw [seqClear, emitAll_append, emitAll_byte]
  exact foldl_tx_byte ..

/-- Settles O24: CLEAR is stepped to its end, 28 or 34 events, and its second transmission drives every line the first drove. -/
theorem clearCompletes : Obligations.ClearCompletes := by
  unfold Obligations.ClearCompletes
  intro s hs
  have hev : eventsOf (sequenceOf .clear s) =
      txEvents s.par s.cfg.dl false 0x01#8 ++ txEvents s.par s.cfg.dl false 0x02#8 :=
    eventsOf_clear ..
  have hlen : (txEvents s.par s.cfg.dl false 0x01#8 ++ txEvents s.par s.cfg.dl false 0x02#8).length
      = 2 * txCount s.cfg.dl := by
    rw [List.length_append, length_txEvents, length_txEvents, two_mul]
  have hpos : 0 < 2 * txCount s.cfg.dl := by
    have h := one_lt_txCount s.cfg.dl
    omega
  have hpins : (txEvents s.par s.cfg.dl false 0x01#8 ++ txEvents s.par s.cfg.dl false 0x02#8).foldl
      (fun q e => e.drive q) s.pins = txPins s.par s.cfg.dl false 0x02#8 s.pins := by
    rw [List.foldl_append, foldl_tx_pins, foldl_tx_pins, txPins_txPins]
  have hdone := sequence_completes (i := .clear) rfl ⟨nofun, nofun⟩ hs hev (hlen ▸ hpos) hpins
    (emitAll_clear_byte s.par s.cfg.dl s)
  rwa [hlen, if_neg nofun] at hdone

end Sys2Proof.Machine
end

section
/-! PROOFS. The micro-operations and the frames stepped to their ends, what a frame latches, the counts of a transmission and of INIT, and the protocol of every trace (R150 to R164, R167, R231, R232, R250, R251). -/

namespace Sys2Proof.Machine

/-! ## Transmissions -/

/-- Settles O33: the row's events are one transmission, which is stepped to its end. -/
theorem transmitCompletes : Obligations.TransmitCompletes := by
  unfold Obligations.TransmitCompletes
  intro rs b s hs
  exact transmission_completes rfl nofun ⟨nofun, nofun⟩ hs rfl

/-- Settles O34: each of the three rows is the transmission of its byte with its RS level. -/
theorem sendCommandAndSendDataComplete : Obligations.SendCommandAndSendDataComplete := by
  unfold Obligations.SendCommandAndSendDataComplete
  intro i rs b s hform hs
  obtain ⟨rfl, rfl⟩ | ⟨rfl, rfl⟩ | ⟨rfl, rfl⟩ := hform
  all_goals exact transmission_completes rfl nofun ⟨nofun, nofun⟩ hs rfl

/-! ## Events that leave BYTE as it is -/

/-- No event of the list begins a transmission, so none takes a byte into BYTE (R25). -/
def KeepsByte (ms : List Micro) : Prop := ∀ m ∈ ms, m.byte = none

theorem KeepsByte.append {ms ns : List Micro} (hm : KeepsByte ms) (hn : KeepsByte ns) :
    KeepsByte (ms ++ ns) := List.forall_mem_append.2 ⟨hm, hn⟩

theorem KeepsByte.emitAll_byte {ms : List Micro} (h : KeepsByte ms) (s : State) :
    (emitAll ms s).byte = s.byte := by
  induction ms generalizing s with
  | nil => rfl
  | cons m ms ih =>
    obtain ⟨hm, hms⟩ := List.forall_mem_cons.1 h
    rw [emitAll_cons, ih hms, emit_byte, hm, Option.getD_none]

theorem keepsByte_pin (s : Signal) (v : Level) : KeepsByte (seqPin s v) := by
  simp [KeepsByte, seqPin]

theorem keepsByte_delay (n : Nat) : KeepsByte (seqDelay n) := by
  simp [KeepsByte, seqDelay]

theorem keepsByte_select (p : Params) (rs : Level) : KeepsByte (seqSelect p rs) :=
  (keepsByte_pin .rs rs).append (keepsByte_pin .rw p.rwWrite)

theorem keepsByte_pulse (p : Params) : KeepsByte (seqPulse p) :=
  ((keepsByte_pin .e _).append (keepsByte_delay p.tPulse)).append (keepsByte_pin .e _)

theorem keepsByte_driveData4 (v : Nibble) : KeepsByte (seqDriveData4 v) := by
  simp [KeepsByte, seqDriveData4, seqPin]

theorem keepsByte_driveData8 (v : Byte) : KeepsByte (seqDriveData8 v) := by
  simp [KeepsByte, seqDriveData8, seqPin]

/-- An operation whose events keep BYTE is stepped to its end: its events, their pin levels, and nothing else (R8, R24, R34). -/
theorem keepsByte_completes {i : Instr} {s : State} {ms : List Micro} {es : List Event}
    {pins : Pins} (hs : CanStart i s) (hi : isSequence i = true) (hinit : i ≠ .init)
    (hw : widthFits i s) (hseq : sequenceOf i s = ms) (hkeeps : KeepsByte ms)
    (hev : eventsOf ms = es) (hpos : 0 < es.length)
    (hpins : es.foldl (fun q e => e.drive q) s.pins = pins) :
    ∃ t u, exec i s = .next t ∧ run (stepsLeft s es.length) t = .next u ∧
      Emitted es pins s.byte s u := by
  subst hseq
  have hdone := sequence_completes hi hw hs hev hpos hpins (hkeeps.emitAll_byte s)
  rwa [if_neg hinit] at hdone

/-! ## The micro-operations on the control lines -/

/-- Settles O39: the two writes of SELECT, stepped to their end. -/
theorem selectCompletes : Obligations.SelectCompletes := by
  unfold Obligations.SelectCompletes
  intro rs s hs
  exact keepsByte_completes hs rfl nofun ⟨nofun, nofun⟩ rfl (keepsByte_select s.par rs)
    (events_select s.par rs) (Nat.succ_pos _) rfl

/-- Settles O40: the strobe, stepped to its end, leaves Enable at 0. -/
theorem pulseCompletes : Obligations.PulseCompletes := by
  unfold Obligations.PulseCompletes
  intro s hs
  exact keepsByte_completes hs rfl nofun ⟨nofun, nofun⟩ rfl (keepsByte_pulse s.par)
    (events_pulse s.par) (Nat.succ_pos _) rfl

/-- Settles O41: the one delay, which drives no line. -/
theorem delayCompletes : Obligations.DelayCompletes := by
  unfold Obligations.DelayCompletes
  intro n s hs
  exact keepsByte_completes hs rfl nofun ⟨nofun, nofun⟩ rfl (keepsByte_delay n)
    (events_delay n) (Nat.succ_pos _) rfl

/-! ## The Data lines and the frames -/

/-- The pins with the lines `D(0)` to `D(3)` at bits 0 to 3 of `v` (R158). -/
def Pins.withData4 {w : Nat} (v : BitVec w) (q : Pins) : Pins :=
  { q with d0 := v.getLsbD 0, d1 := v.getLsbD 1, d2 := v.getLsbD 2, d3 := v.getLsbD 3 }

/-- The pins with the eight Data lines at the bits of `v` (R158). -/
def Pins.withData8 (v : Byte) (q : Pins) : Pins :=
  { q.withData4 v with
    d4 := v.getLsbD 4, d5 := v.getLsbD 5, d6 := v.getLsbD 6, d7 := v.getLsbD 7 }

/-- The four Data writes drive those lines and no other (R158). -/
theorem foldl_data4_pins {w : Nat} (v : BitVec w) (q : Pins) :
    (data4 v).foldl (fun q e => e.drive q) q = q.withData4 v := rfl

/-- The eight Data writes drive those lines and no other (R158). -/
theorem foldl_data8_pins (v : Byte) (q : Pins) :
    (data8 v).foldl (fun q e => e.drive q) q = q.withData8 v := rfl

/-- The strobe leaves Enable at 0 and drives no other line (R159). -/
theorem foldl_strobe_pins (p : Params) (q : Pins) :
    (strobe p).foldl (fun q e => e.drive q) q = { q with e := false } := rfl

/-- Settles O38: the writes of the four or eight lines, stepped to their end. -/
theorem driveDataCompletes : Obligations.DriveDataCompletes := by
  unfold Obligations.DriveDataCompletes
  refine ⟨fun v s hdl hs => ?_, fun v s hdl hs => ?_⟩
  · exact keepsByte_completes hs rfl nofun ⟨fun _ => hdl, nofun⟩ rfl (keepsByte_driveData4 v)
      (events_driveData4 v) (Nat.succ_pos _) (foldl_data4_pins v s.pins)
  · exact keepsByte_completes hs rfl nofun ⟨nofun, fun _ => hdl⟩ rfl (keepsByte_driveData8 v)
      (events_driveData8 v) (Nat.succ_pos _) (foldl_data8_pins v s.pins)

/-- FRAME4 is its four Data writes and the strobe (R156). -/
theorem events_frame4 (p : Params) (v : Nibble) :
    eventsOf (seqFrame4 p v) = data4 v ++ strobe p := by
  rw [seqFrame4, eventsOf_append, events_driveData4, events_pulse]

/-- FRAME8 is its eight Data writes and the strobe (R155). -/
theorem events_frame8 (p : Params) (v : Byte) :
    eventsOf (seqFrame8 p v) = data8 v ++ strobe p := by
  rw [seqFrame8, eventsOf_append, events_driveData8, events_pulse]

/-- An operation whose events are FRAME4's is stepped to its end (R156). -/
theorem frame4_completes {i : Instr} {v : Nibble} {s : State} (hs : CanStart i s)
    (hi : isSequence i = true) (hinit : i ≠ .init) (hw : widthFits i s)
    (hseq : sequenceOf i s = seqFrame4 s.par v) :
    ∃ t u, exec i s = .next t ∧ run (stepsLeft s 7) t = .next u ∧
      Emitted (data4 v ++ strobe s.par) { s.pins.withData4 v with e := false } s.byte s u := by
  refine keepsByte_completes hs hi hinit hw hseq
    ((keepsByte_driveData4 v).append (keepsByte_pulse s.par)) (events_frame4 s.par v)
    (Nat.succ_pos _) ?_
  rw [List.foldl_append, foldl_data4_pins, foldl_strobe_pins]

/-- An operation whose events are FRAME8's is stepped to its end (R155). -/
theorem frame8_completes {i : Instr} {v : Byte} {s : State} (hs : CanStart i s)
    (hi : isSequence i = true) (hinit : i ≠ .init) (hw : widthFits i s)
    (hseq : sequenceOf i s = seqFrame8 s.par v) :
    ∃ t u, exec i s = .next t ∧ run (stepsLeft s 11) t = .next u ∧
      Emitted (data8 v ++ strobe s.par) { s.pins.withData8 v with e := false } s.byte s u := by
  refine keepsByte_completes hs hi hinit hw hseq
    ((keepsByte_driveData8 v).append (keepsByte_pulse s.par)) (events_frame8 s.par v)
    (Nat.succ_pos _) ?_
  rw [List.foldl_append, foldl_data8_pins, foldl_strobe_pins]

/-- FRAME on an 8-bit bus is FRAME8 (R157). -/
theorem sequenceOf_frame_of_dl {s : State} (hdl : s.cfg.dl = true) (v : Byte) :
    sequenceOf (.frame v) s = seqFrame8 s.par v := by
  simp [sequenceOf, seqFrame, hdl]

/-- FRAME on a 4-bit bus is FRAME4 of bits 0 to 3 (R157, R158). -/
theorem sequenceOf_frame_of_not_dl {s : State} (hdl : s.cfg.dl = false) (v : Byte) :
    sequenceOf (.frame v) s = seqFrame4 s.par (lo v) := by
  simp [sequenceOf, seqFrame, hdl]

/-- Settles O35: both rows have the events of FRAME8 on an 8-bit bus. -/
theorem eightBitFramesComplete : Obligations.EightBitFramesComplete := by
  unfold Obligations.EightBitFramesComplete
  intro i v s hform hdl hs
  obtain ⟨rs, rfl⟩ | rfl := hform
  · exact frame8_completes hs rfl nofun ⟨nofun, fun _ => hdl⟩ rfl
  · exact frame8_completes hs rfl nofun ⟨nofun, nofun⟩ (sequenceOf_frame_of_dl hdl v)

/-- Settles O36: the events of FRAME4, on the bus width it needs. -/
theorem fourBitFrameCompletes : Obligations.FourBitFrameCompletes := by
  unfold Obligations.FourBitFrameCompletes
  intro rs v s hdl hs
  exact frame4_completes hs rfl nofun ⟨fun _ => hdl, nofun⟩ rfl

/-- The low nibble drives the four lines as the byte does (R86, R158). -/
theorem Pins.withData4_lo (v : Byte) (q : Pins) : q.withData4 (lo v) = q.withData4 v := by
  rw [← foldl_data4_pins, data4_lo, foldl_data4_pins]

/-- Settles O37: on a 4-bit bus FRAME is FRAME4 of the byte's low nibble. -/
theorem frameOnFourLinesCompletes : Obligations.FrameOnFourLinesCompletes := by
  unfold Obligations.FrameOnFourLinesCompletes
  intro v s hdl hs
  have hdone := frame4_completes hs rfl nofun ⟨nofun, nofun⟩ (sequenceOf_frame_of_not_dl hdl v)
  rwa [data4_lo, Pins.withData4_lo] at hdone

/-! ## The observation levels -/

/-- A Data write yields no item (R161). -/
theorem levelW_setData (n : Nat) (q : Pins) (i : Fin 8) (v : Level) (es : List Event) :
    levelW n q (.setPin (.d i) v :: es) = levelW n (q.set (.d i) v) es := by
  simp [levelW]

/-- What follows four Data writes is read with the levels they drove (R161). -/
theorem levelW_data4 {w : Nat} (n : Nat) (v : BitVec w) (q : Pins) (es : List Event) :
    levelW n q (data4 v ++ es) = levelW n (q.withData4 v) es := by
  simp only [data4, List.cons_append, List.nil_append, levelW_setData]
  rfl

/-- What follows eight Data writes is read with the levels they drove (R161). -/
theorem levelW_data8 (n : Nat) (v : Byte) (q : Pins) (es : List Event) :
    levelW n q (data8 v ++ es) = levelW n (q.withData8 v) es := by
  simp only [data8, List.cons_append, List.nil_append, levelW_setData]
  rfl

/-- A strobe from Enable 0 latches the levels that stand (R161). -/
theorem levelW_strobe {q : Pins} (hq : q.e = false) (n : Nat) (p : Params) :
    levelW n q (strobe p) = [.latch q.rs q.rw n (q.dataValue n)] := by
  simp [strobe, levelW, Pins.set, Pins.dataValue, hq]

/-- Four line levels put together again are the nibble (R161). -/
theorem nibble_of_bits : ∀ v : Nibble,
    bitByte (v.getLsbD 0) ||| bitByte (v.getLsbD 1) <<< 1 ||| bitByte (v.getLsbD 2) <<< 2 |||
      bitByte (v.getLsbD 3) <<< 3 ||| 0#8 = v.setWidth 8 := by decide

/-- The four lines hold the nibble (R161). -/
theorem dataValue_withData4 (v : Nibble) (q : Pins) :
    (q.withData4 v).dataValue 4 = v.setWidth 8 :=
  nibble_of_bits v

/-- The eight lines hold the byte (R161). -/
theorem dataValue_withData8 (v : Byte) (q : Pins) : (q.withData8 v).dataValue 8 = v :=
  byte_of_bits v

/-- Settles O50: the Data writes set the lines, and the strobe latches them with RS and RW as they stand. -/
theorem frameYieldsItsLatch : Obligations.FrameYieldsItsLatch := by
  unfold Obligations.FrameYieldsItsLatch
  intro q p hq
  refine ⟨fun v => ?_, fun v => ?_⟩
  · rw [levelW_data8, levelW_strobe (q := q.withData8 v) hq, dataValue_withData8]
    rfl
  · rw [levelW_data4, levelW_strobe (q := q.withData4 v) hq, dataValue_withData4]
    rfl

/-- Settles O51: by induction on the list of transmissions, each read as its own item (`levelB_txs`). -/
theorem transmissionsParseAtLevelB : Obligations.TransmissionsParseAtLevelB := by
  unfold Obligations.TransmissionsParseAtLevelB
  intro p dl l q hq
  exact levelB_txs p dl l hq

/-! ## Counts and least times -/

theorem leastTimeOf_append (a b : List Event) :
    leastTimeOf (a ++ b) = leastTimeOf a + leastTimeOf b := by
  simp [leastTimeOf]

/-- A transmission requests its settle and a hold for each strobe (R250). -/
theorem leastTimeOf_tx (p : Params) (dl : Bool) (rs : Level) (b : Byte) :
    leastTimeOf (txEvents p dl rs b) = txTime p dl := by
  cases dl with
  | false => simp [leastTimeOf, txEvents, tx4, txTime, Event.leastTime, two_mul]
  | true => simp [leastTimeOf, txEvents, tx8, txTime, Event.leastTime]

/-- Transmissions request the time of one for each of them (R250). -/
theorem leastTimeOf_txs (p : Params) (dl : Bool) (l : List (Level × Byte)) :
    leastTimeOf (txsEvents p dl l) = l.length * txTime p dl := by
  induction l with
  | nil => simp [txsEvents, leastTimeOf]
  | cons x l ih =>
    rw [txsEvents_cons, leastTimeOf_append, leastTimeOf_tx, ih, List.length_cons, Nat.succ_mul,
      Nat.add_comm]

/-- INIT sends five bytes, and two more on a 4-bit bus (R111). -/
theorem length_initBytes (c : Cfg) : (initBytes c).length = if c.dl then 5 else 7 := by
  cases hdl : c.dl <;> simp [initBytes, hdl]

/-- INIT requests the power-on settle and the time of its transmissions (R251). -/
theorem leastTimeOf_init (p : Params) (c : Cfg) :
    leastTimeOf (initEvents p c) =
      p.tPowerOn + (if c.dl then 5 else 7) * txTime p c.dl := by
  rw [initEvents_eq, leastTimeOf_append, leastTimeOf_txs, List.length_map, length_initBytes]
  rfl

/-- Settles O54: the counts stand in the event list of a transmission at each width; INIT is the power-on settle and five or seven transmissions. -/
theorem eventCountsAndLeastTimes : Obligations.EventCountsAndLeastTimes := by
  unfold Obligations.EventCountsAndLeastTimes
  intro s rs b
  have htx : eventsOf (sequenceOf (.transmit rs b) s) = txEvents s.par s.cfg.dl rs b :=
    events_transmit ..
  have hinit : eventsOf (sequenceOf .init s) = initEvents s.par s.cfg := events_init ..
  rw [htx]
  refine ⟨length_txEvents .., ?pinWrites, ?enableWrites, leastTimeOf_tx .., ?initLength,
    ?initTime⟩
  case pinWrites => cases s.cfg.dl <;> rfl
  case enableWrites => cases s.cfg.dl <;> rfl
  case initLength => exact (length_eventsOf _).trans (length_seqInit ..)
  case initTime =>
    rw [hinit]
    exact leastTimeOf_init ..

/-! ## The protocol -/

/-- Settles O60: TRACE is the first part of the whole trace the invariant speaks of, and all of it when the block is idle. -/
theorem tracesKeepTheProtocol : Obligations.TracesKeepTheProtocol := by
  unfold Obligations.TracesKeepTheProtocol
  intro s h
  have hquiet : quiet false (s.trace ++ remaining s) = true := h.quietOk
  rw [quiet_append, Bool.and_eq_true] at hquiet
  obtain ⟨hpast, -⟩ := hquiet
  refine ⟨hpast, settled_of_append 5 0 s.trace (remaining s) h.settledOk, fun hs => ?_⟩
  exact ⟨fullTrace_idle hs ▸ h.heldOk, h.enable_idle hs⟩

end Sys2Proof.Machine
end

section
/-! PROOFS. PUT_CHAR and PUT_STRING stepped to their ends, the empty string, the operand without a sentinel, and the order of the fetches (R180 to R182). -/

namespace Sys2Proof.Machine

/-! ## PUT_CHAR -/

/-- Settles O25: the one data transmission of the byte is stepped to its end. -/
theorem putCharCompletes : Obligations.PutCharCompletes := by
  unfold Obligations.PutCharCompletes
  intro b s hs
  exact transmission_completes rfl nofun ⟨nofun, nofun⟩ hs rfl

/-! ## PUT_STRING to its end -/

/-- An idle, READY block accepts PUT_STRING of a string and transmits its bytes, one event a step (R24, R181). -/
theorem exec_putString_then_run {bs junk : List Byte} (hbs : ∀ b ∈ bs, b ≠ Config.sentinel)
    {s : State} (hs : s.seq = .idle) (hl : s.life = .ready)
    (hstr : s.str = Memory.ofBytes (bs ++ Config.sentinel :: junk)) :
    ∃ t, exec .putString s = .next t ∧
      run (bs.length * txCount s.cfg.dl) t =
        .next (completed (bs.flatMap (seqSendData s.par s.cfg.dl))
          { s with strpos := bs.length }) := by
  have hlen : s.str.stringLength.isSome = true := by
    rw [hstr]
    exact Option.isSome_of_eq_some (Memory.stringLength_ofBytes bs junk hbs)
  have hread : ∀ k, s.str.read (0 + k) = (bs ++ Config.sentinel :: junk)[k]? := by simp [hstr]
  rw [exec_putString_begins hs hl hlen]
  simpa only [Nat.zero_add] using fetchChar_then_run hbs s.seq hread

/-- The events of a string are the data transmissions of its bytes (R181). -/
theorem eventsOf_string (p : Params) (dl : Bool) (bs : List Byte) :
    eventsOf (bs.flatMap (seqSendData p dl)) = bs.flatMap (txEvents p dl true) := by
  rw [eventsOf_flatMap_sendData, txsEvents, List.flatMap_map]

/-- The pins after a string are as the transmission of its last byte leaves those before it (R164). -/
theorem emitAll_string_pins (p : Params) (dl : Bool) (bs : List Byte) (b : Byte) (s : State) :
    (emitAll ((bs ++ [b]).flatMap (seqSendData p dl)) s).pins = txPins p dl true b s.pins := by
  rw [emitAll_pins, eventsOf_flatMap_sendData, List.map_append]
  exact foldl_txs_pins p dl (bs.map (true, ·)) (true, b) s.pins

/-- The last byte of a string stays in BYTE (R25). -/
theorem emitAll_string_byte (p : Params) (dl : Bool) (bs : List Byte) (b : Byte) (s : State) :
    (emitAll ((bs ++ [b]).flatMap (seqSendData p dl)) s).byte = b := by
  rw [List.flatMap_append, List.flatMap_singleton, emitAll_append, emitAll_byte]
  exact foldl_tx_byte ..

/-- Settles O26: the bytes are transmitted in order up to the sentinel, and the last one's transmission drives every line those before it drove. -/
theorem putStringCompletes : Obligations.PutStringCompletes := by
  unfold Obligations.PutStringCompletes
  intro s bytes junk last hs hl hstr hbytes hlast
  obtain ⟨t, hx, hrun⟩ := exec_putString_then_run hbytes hs hl hstr
  refine ⟨t, _, hx, hrun, ?_⟩
  let s' : State := { s with strpos := bytes.length }
  let ms := bytes.flatMap (seqSendData s.par s.cfg.dl)
  obtain ⟨init, hinit⟩ := List.getLast?_eq_some_iff.1 hlast
  have hpins : (emitAll ms s').pins = txPins s.par s.cfg.dl true last s.pins := by
    simp only [ms, hinit, emitAll_string_pins, s']
  have hbyte : (emitAll ms s').byte = last := by
    simp only [ms, hinit, emitAll_string_byte]
  rw [← eventsOf_string, ← hpins, ← hbyte, completed]
  simpa only [emitAll_life] using emitted_emitAll ms s.life s'

/-- Settles O27: byte 0 is the sentinel, so its fetch ends the operation. -/
theorem emptyStringEmitsNothing : Obligations.EmptyStringEmitsNothing := by
  unfold Obligations.EmptyStringEmitsNothing
  intro s junk hs hl hstr
  have hread : s.str.read 0 = some Config.sentinel := by rw [hstr, Memory.read_ofBytes]; rfl
  rw [exec_putString_begins hs hl (Memory.stringLength_isSome_of_empty hread),
    fetchChar_sentinel hread, ← hs]

/-! ## An operand without a sentinel -/

/-- Where no index holds the sentinel none is found, however far one looks (U13). -/
theorem Memory.sentinelFrom_eq_none {m : Memory} (hm : ∀ k, m.read k ≠ some Config.sentinel)
    (k fuel : Nat) : m.sentinelFrom k fuel = none := by
  induction fuel generalizing k with
  | zero => rfl
  | succ fuel ih =>
    cases hread : m.read k with
    | none => simp only [Memory.sentinelFrom, hread]
    | some b =>
      have hb : b ≠ Config.sentinel := fun h => hm k (h ▸ hread)
      simp only [Memory.sentinelFrom, hread, if_neg hb, ih]

/-- The acceptance of PUT_STRING refuses an operand that has no length (U13). -/
theorem exec_putString_refuses {s : State} (hs : s.seq = .idle) (hl : s.life = .ready)
    (hn : s.str.stringLength = none) : exec .putString s = .refused .unterminatedString := by
  simp [exec, execPutString, hs, State.isReady, hl, beginString, hn]

/-- Settles O28: the operand has no length, so its acceptance refuses it. -/
theorem unterminatedStringIsRefused : Obligations.UnterminatedStringIsRefused := by
  unfold Obligations.UnterminatedStringIsRefused
  intro s hs hl hm
  exact exec_putString_refuses hs hl (Memory.sentinelFrom_eq_none hm 0 _)

/-! ## The order of the fetches -/

/-- Position `k` of a transmission holds its event number `k` (R24, R152). -/
theorem exists_micro_of_txEvents {p : Params} {dl : Bool} {b : Byte} {k : Nat} {e : Event}
    (he : (txEvents p dl true b)[k]? = some e) :
    ∃ m, (seqSendData p dl b)[k]? = some m ∧ m.ev = e := by
  rw [← events_transmit, eventsOf, List.getElem?_map] at he
  exact Option.map_eq_some_iff.1 he

/-- A transmission ends with the falling write of Enable (R152). -/
theorem txEvents_last (p : Params) {dl : Bool} (rs : Level) (b : Byte) {k : Nat}
    (hk : k + 1 = txCount dl) : (txEvents p dl rs b)[k]? = some (.setPin .e false) := by
  have hlast : (txEvents p dl rs b).getLast? = some (.setPin .e false) := by cases dl <;> rfl
  rwa [List.getLast?_eq_getElem?, length_txEvents, ← hk] at hlast

/-- Settles O29: a byte's events before its last leave the operand unread, and its last one is the falling write of Enable with the fetch of the byte after it. -/
theorem stringBytesAreFetchedLazily : Obligations.StringBytesAreFetchedLazily := by
  unfold Obligations.StringBytesAreFetchedLazily
  intro s k hs
  refine ⟨fun hk => ?inside, fun hk => ?last⟩
  case inside =>
    have hlt : k < (txEvents s.par s.cfg.dl true s.byte).length := by
      rw [length_txEvents]
      omega
    obtain ⟨m, hm, hev⟩ := exists_micro_of_txEvents (List.getElem?_eq_getElem hlt)
    refine ⟨_, exec_putString_emits hs hm hk, rfl,
      emit_sendData_byte (List.mem_of_getElem? hm), rfl, ?trace, ?unread⟩
    case trace => rw [← List.getElem_eq_getD (h := hlt), ← hev]; rfl
    case unread =>
      intro str
      exact exec_putString_emits (s := { s with str := str }) hs hm hk
  case last =>
    obtain ⟨m, hm, hev⟩ := exists_micro_of_txEvents (txEvents_last s.par true s.byte hk)
    have hx := exec_putString_ends_char hs hm hk
    have htrace : (emit m s).trace = s.trace ++ [.setPin .e false] := by rw [← hev]; rfl
    refine ⟨fun hread => ?sentinel, fun c hc hread => ?char⟩
    case sentinel =>
      exact ⟨_, hx.trans (fetchChar_sentinel hread), rfl,
        emit_sendData_byte (List.mem_of_getElem? hm), rfl, htrace⟩
    case char => exact ⟨_, hx.trans (fetchChar_char hread hc), rfl, rfl, rfl, htrace⟩

end Sys2Proof.Machine
end

section
/-! PROOFS. Exceptions: what a mismatched construction leaves and records, what a FAILED block still does, and an instruction that its lifecycle does not admit or that another operation forestalls (R191, R195, R196, R203, U5). -/

namespace Sys2Proof.Machine

/-! ## ConfigError -/

/-- A construction whose Data list is not of the bus width takes ConfigError, in every lifecycle (R191). -/
theorem exec_construct_takes_configError {d : Bool} (n f : Bool) {s : State} (hs : s.seq = .idle)
    (hlen : s.pinsArg.data.length ≠ widthOf d) :
    exec (.construct d n f) s =
      .next (takeConfigError s.pinsArg.data.length (widthOf d) s) := by
  simp [exec, execConstruct, hs, hlen]

/-- CFGERR is 1 in FAILED (R28). -/
theorem cfgErr_of_failed {s : State} (hl : s.life = .failed) : s.cfgErr = true :=
  (statusBits s).2.2 hl

/-- Settles O15: each field as `takeConfigError` leaves it. -/
theorem mismatchedDataListTakesConfigError :
    Obligations.MismatchedDataListTakesConfigError := by
  unfold Obligations.MismatchedDataListTakesConfigError
  intro d n f s hs hlen
  exact ⟨_, exec_construct_takes_configError n f hs hlen, rfl, rfl, rfl, rfl, rfl,
    cfgErr_of_failed rfl, rfl, rfl, rfl, rfl, rfl, rfl, rfl, fun _ => rfl⟩

/-- Settles O16: the record that `takeConfigError` writes. -/
theorem configErrorIsRecorded : Obligations.ConfigErrorIsRecorded := by
  unfold Obligations.ConfigErrorIsRecorded
  intro d n f s hs hlen
  exact ⟨_, exec_construct_takes_configError n f hs hlen, takeConfigError_error ..⟩

/-- Settles O18: an idle FAILED block with no construction presented does no more than take an item off the port. -/
theorem failedIsTerminal : Obligations.FailedIsTerminal := by
  unfold Obligations.FailedIsTerminal
  intro s t hl hs hport hstep
  have hcfg : s.cfgErr = true := cfgErr_of_failed hl
  obtain ⟨i, k, hrun, -⟩ | ⟨-, -, rfl⟩ | ⟨x, rest, -, -, rfl⟩ |
    ⟨w, pins, rest, d, n, f, -, hp, -⟩ | ⟨w, m, rest, i, -, hready, -⟩ := step_cases hstep
  · exact absurd (hs.symm.trans hrun) Seq.noConfusion
  · exact ⟨hl, hs, hcfg, rfl, rfl⟩
  · exact ⟨hl, hs, hcfg, rfl, rfl⟩
  · exact absurd (congrArg List.head? hp) (hport w pins)
  · exact absurd (hl.symm.trans hready) Life.noConfusion

/-! ## An instruction without a meaning where it stands -/

/-- Settles O43: CONSTRUCT is admitted everywhere, PUT_STRING tests READY, and a sequence tests its lifecycle. -/
theorem notAdmittedChangesNothing : Obligations.NotAdmittedChangesNothing := by
  unfold Obligations.NotAdmittedChangesNothing
  intro i s hs ha h4 h8
  cases i with
  | construct d n f => exact absurd ha Bool.noConfusion
  | putString => exact exec_putString_not_ready hs (of_decide_eq_false ha)
  | _ => exact exec_not_admitted rfl ⟨h4, h8⟩ hs ha

/-- A sequence is refused while another operation is in progress (R203, U5). -/
theorem exec_sequence_interleaved {i j : Instr} {k : Nat} {s : State} (hi : isSequence i = true)
    (hw : widthFits i s) (hj : j ≠ i) (hs : s.seq = .run j k) :
    exec i s = .refused .operationInProgress := by
  simp [exec_eq_runOp hi hw, runOp, hs, hj]

/-- Settles O44: CONSTRUCT is refused inside any operation, PUT_STRING and a sequence inside another one. -/
theorem interleavedOperationIsRefused : Obligations.InterleavedOperationIsRefused := by
  unfold Obligations.InterleavedOperationIsRefused
  intro i j k s hj hs h4 h8
  cases i with
  | construct d n f => simp [exec, execConstruct, hs]
  | putString => simp [exec, execPutString, hs, hj]
  | _ => exact exec_sequence_interleaved rfl ⟨h4, h8⟩ hj hs

end Sys2Proof.Machine
end
